-- ==== Sys2Proof/Word.lean ====
section
/-!
DEFINITION. The widths of the frame codec core (00_scope.md R8): 8-bit characters, bytes and sums, 16-bit
registers, read addresses and read values, 32-bit command words.
-/
namespace Sys2Proof

/-- An 8-bit value: a character code of TBUF, a byte of BBUF, a checksum. -/
abbrev Byte := BitVec 8

/-- A 16-bit value: a register, a read address or a read value. -/
abbrev Half := BitVec 16

/-- A 32-bit command word (30_encoding.md R60). -/
abbrev Word := BitVec 32

/-- `zext_16` of an 8-bit value (00_scope.md R8). -/
abbrev zext16 (v : Byte) : Half := v.setWidth 16

end Sys2Proof
end

