-- ==== Sys2Proof/Syntax.lean ====
section
/-!
DEFINITION. The fourteen commands (30_encoding.md R62; one constructor per row of spec/opcode_table.json), each
with the operand its class gives it (R61). An operand has exactly its field's width, so every term is a command
the block can be given; a word that is no command is refused by decoding.
-/
namespace Sys2Proof

/-- The commands of 30_encoding.md R62, in the table's order. -/
inductive Instr where
  /-- NOP (44_control.md R130). -/
  | nop
  /-- SRST (44_control.md R131). -/
  | srst
  /-- TXT.CLEAR (40_hexcodec.md R86). -/
  | txtClear
  /-- TXT.PUSH `c`, a character code (40_hexcodec.md R87). -/
  | txtPush (c : Byte)
  /-- TXT.SANITIZE (40_hexcodec.md R88). -/
  | txtSanitize
  /-- HEX.DECODE (40_hexcodec.md R89). -/
  | hexDecode
  /-- CSUM.CLEAR (41_checksum.md R97). -/
  | csumClear
  /-- CSUM.BYTE `b` (41_checksum.md R98). -/
  | csumByte (b : Byte)
  /-- CRC.INIT `v` (42_crc.md R102). -/
  | crcInit (v : Half)
  /-- CRC.BYTE `b` (42_crc.md R103). -/
  | crcByte (b : Byte)
  /-- FRM.HEADER (43_frame.md R116). -/
  | frmHeader
  /-- FRM.PAYLOAD (43_frame.md R117). -/
  | frmPayload
  /-- FRM.VALIDATE (43_frame.md R118). -/
  | frmValidate
  /-- FRM.FULL (43_frame.md R119). -/
  | frmFull
  deriving DecidableEq, Repr

end Sys2Proof
end

