-- ==== Sys2Proof/WellFormed.lean ====
section
/-!
DEFINITION. Which command words are well formed: the *legal* words of 30_encoding.md R63, in the rule's
match/mask form over the opcode map of R62. The decoder (Decode.lean) is written apart from this table, from
R67's case list; that the two agree is a statement for the provers. An operand of an `Instr` fits its field by
its type, so there is no further check on terms.
-/
namespace Sys2Proof

/-- The operand classes of 30_encoding.md R61. -/
inductive OperandClass where
  /-- No operand: `B8` and `IMM16` must be zero. -/
  | none
  /-- An 8-bit operand in `B8`: `IMM16` must be zero. -/
  | b8
  /-- A 16-bit operand in `IMM16`: `B8` must be zero. -/
  | imm16
  deriving DecidableEq, Repr

/-- The mask of a class: the bits of a word that are not its operand (30_encoding.md R63). -/
def OperandClass.mask : OperandClass → Word
  | .none => 0xFFFFFFFF#32
  | .b8 => 0xFFFF00FF#32
  | .imm16 => 0x0000FFFF#32

/-- One row of the opcode map (30_encoding.md R62). -/
structure OpcodeRow where
  /-- The mnemonic, letter for letter. -/
  mnemonic : String
  /-- The opcode, `OPC`. -/
  opc : Byte
  /-- The operand class. -/
  cls : OperandClass
  deriving DecidableEq, Repr

/-- The opcode map of 30_encoding.md R62. -/
def opcodeRows : List OpcodeRow :=
  [⟨"NOP", 0x00, .none⟩, ⟨"SRST", 0x01, .none⟩,
   ⟨"TXT.CLEAR", 0x10, .none⟩, ⟨"TXT.PUSH", 0x11, .b8⟩, ⟨"TXT.SANITIZE", 0x12, .none⟩, ⟨"HEX.DECODE", 0x13, .none⟩,
   ⟨"CSUM.CLEAR", 0x20, .none⟩, ⟨"CSUM.BYTE", 0x21, .b8⟩,
   ⟨"CRC.INIT", 0x30, .imm16⟩, ⟨"CRC.BYTE", 0x31, .b8⟩,
   ⟨"FRM.HEADER", 0x40, .none⟩, ⟨"FRM.PAYLOAD", 0x41, .none⟩, ⟨"FRM.VALIDATE", 0x42, .none⟩, ⟨"FRM.FULL", 0x43, .none⟩]

/-- A row accepts a word: `(w & mask) == match`, the match being the opcode (30_encoding.md R63). -/
def OpcodeRow.accepts (r : OpcodeRow) (w : Word) : Bool :=
  w &&& r.cls.mask == r.opc.setWidth 32

/-- `legal(w)` of 30_encoding.md R63, in its match/mask form. -/
def legal (w : Word) : Bool :=
  opcodeRows.any (fun r => r.accepts w)

end Sys2Proof
end

