-- ==== Sys2Proof/Decode.lean ====
section
/-!
DEFINITION. Decoding of command words, total on all `2^32` of them (30_encoding.md R67), and the encoder
(R60, R69). A command word is delivered whole and has no byte order (20_memory.md R48), so a word is a 32-bit
value here, not a list of bytes.
-/
namespace Sys2Proof

/-! ### Fields (30_encoding.md R60) -/

/-- `OPC = w[7:0]`. -/
def Word.opc (w : Word) : Byte := w.extractLsb' 0 8

/-- `B8 = w[15:8]`. -/
def Word.b8 (w : Word) : Byte := w.extractLsb' 8 8

/-- `IMM16 = w[31:16]`. -/
def Word.imm16 (w : Word) : Half := w.extractLsb' 16 16

/-- `(v << 16) | (b << 8) | OPC` (30_encoding.md R69): the three fields laid side by side. -/
def Word.ofFields (v : Half) (b op : Byte) : Word := v ++ b ++ op

/-! ### Opcodes (30_encoding.md R62) -/

abbrev Opc.nop : Byte := 0x00#8
abbrev Opc.srst : Byte := 0x01#8
abbrev Opc.txtClear : Byte := 0x10#8
abbrev Opc.txtPush : Byte := 0x11#8
abbrev Opc.txtSanitize : Byte := 0x12#8
abbrev Opc.hexDecode : Byte := 0x13#8
abbrev Opc.csumClear : Byte := 0x20#8
abbrev Opc.csumByte : Byte := 0x21#8
abbrev Opc.crcInit : Byte := 0x30#8
abbrev Opc.crcByte : Byte := 0x31#8
abbrev Opc.frmHeader : Byte := 0x40#8
abbrev Opc.frmPayload : Byte := 0x41#8
abbrev Opc.frmValidate : Byte := 0x42#8
abbrev Opc.frmFull : Byte := 0x43#8

/-! ### Decode -/

/-- What `decode(w)` answers (30_encoding.md R67): a command with its operand, or `Illegal(w[7:0])`. -/
inductive Decoded where
  /-- A legal word: the command it stands for. -/
  | legal (i : Instr)
  /-- An illegal word, by its opcode byte. -/
  | illegal (op : Byte)
  deriving DecidableEq, Repr

/-- Class `none`: legal when `B8` and `IMM16` are zero (30_encoding.md R61, R63). -/
def decodeNone (w : Word) (i : Instr) : Decoded :=
  if Word.b8 w = 0 ∧ Word.imm16 w = 0 then .legal i else .illegal (Word.opc w)

/-- Class `b8`: legal when `IMM16` is zero (30_encoding.md R61, R63). -/
def decodeB8 (w : Word) (i : Instr) : Decoded :=
  if Word.imm16 w = 0 then .legal i else .illegal (Word.opc w)

/-- Class `imm16`: legal when `B8` is zero (30_encoding.md R61, R63). -/
def decodeImm16 (w : Word) (i : Instr) : Decoded :=
  if Word.b8 w = 0 then .legal i else .illegal (Word.opc w)

/-- `decode(w)` (30_encoding.md R67); every opcode outside R62's table is illegal (R64). -/
def decode (w : Word) : Decoded :=
  if Word.opc w = Opc.nop then decodeNone w .nop
  else if Word.opc w = Opc.srst then decodeNone w .srst
  else if Word.opc w = Opc.txtClear then decodeNone w .txtClear
  else if Word.opc w = Opc.txtPush then decodeB8 w (.txtPush (Word.b8 w))
  else if Word.opc w = Opc.txtSanitize then decodeNone w .txtSanitize
  else if Word.opc w = Opc.hexDecode then decodeNone w .hexDecode
  else if Word.opc w = Opc.csumClear then decodeNone w .csumClear
  else if Word.opc w = Opc.csumByte then decodeB8 w (.csumByte (Word.b8 w))
  else if Word.opc w = Opc.crcInit then decodeImm16 w (.crcInit (Word.imm16 w))
  else if Word.opc w = Opc.crcByte then decodeB8 w (.crcByte (Word.b8 w))
  else if Word.opc w = Opc.frmHeader then decodeNone w .frmHeader
  else if Word.opc w = Opc.frmPayload then decodeNone w .frmPayload
  else if Word.opc w = Opc.frmValidate then decodeNone w .frmValidate
  else if Word.opc w = Opc.frmFull then decodeNone w .frmFull
  else .illegal (Word.opc w)

/-! ### Encode -/

/-- The word of a command (30_encoding.md R69): the absent operand fields are zero. -/
def encode : Instr → Word
  | .nop => Word.ofFields 0 0 Opc.nop
  | .srst => Word.ofFields 0 0 Opc.srst
  | .txtClear => Word.ofFields 0 0 Opc.txtClear
  | .txtPush c => Word.ofFields 0 c Opc.txtPush
  | .txtSanitize => Word.ofFields 0 0 Opc.txtSanitize
  | .hexDecode => Word.ofFields 0 0 Opc.hexDecode
  | .csumClear => Word.ofFields 0 0 Opc.csumClear
  | .csumByte b => Word.ofFields 0 b Opc.csumByte
  | .crcInit v => Word.ofFields v 0 Opc.crcInit
  | .crcByte b => Word.ofFields 0 b Opc.crcByte
  | .frmHeader => Word.ofFields 0 0 Opc.frmHeader
  | .frmPayload => Word.ofFields 0 0 Opc.frmPayload
  | .frmValidate => Word.ofFields 0 0 Opc.frmValidate
  | .frmFull => Word.ofFields 0 0 Opc.frmFull

/-! ### The opcode table's numbering -/

/-- The bits of a table row as the 32-bit word the host issues: bit 0 is the word's least significant bit, the
bits above `nbits` are zero. No command is longer than 32 bits (30_encoding.md R66). -/
def tableWord (nbits w : Nat) : Word := BitVec.ofNat 32 (w % 2 ^ nbits)

/-- The command the decoder reads from a table row's bits; none where it refuses. -/
def decodeTableWord (nbits w : Nat) : Option Instr :=
  match decode (tableWord nbits w) with
  | .legal i => some i
  | .illegal _ => none

end Sys2Proof
end

