-- ==== Sys2Proof/Config.lean ====
section
/-!
DEFINITION. The one implementation parameter of the block, `TEXT_MAX` (00_scope.md R6). The model takes it as an
argument: a value of `Config`, which the state carries and no step changes (log entry 3).
-/
namespace Sys2Proof

/-- The implementation parameters (00_scope.md R6). -/
structure Config where
  /-- `TEXT_MAX`: the capacity of TBUF in characters. -/
  textMax : Nat
  deriving DecidableEq, Repr

/-- `BYTE_MAX = TEXT_MAX / 2`: the capacity of BBUF (00_scope.md R6). -/
def Config.byteMax (c : Config) : Nat := c.textMax / 2

/-- The values of `TEXT_MAX` the spec allows: even, `526 <= TEXT_MAX <= 32768` (00_scope.md R6). -/
abbrev Config.legal (c : Config) : Prop :=
  c.textMax % 2 = 0 ∧ 526 ≤ c.textMax ∧ c.textMax ≤ 32768

/-- The default parameter, `TEXT_MAX = 2048` (00_scope.md R6). -/
def Config.default : Config := { textMax := 2048 }

end Sys2Proof
end

