-- ==== Sys2Proof/Machine/State.lean ====
section
/-!
DEFINITION. The state of one block (10_state.md R20), the host's events it has not taken yet, the reasons a step
can stop, and the state after reset (70_reset_and_hazards.md R160).
-/
namespace Sys2Proof.Machine

/-- One of the block's two internal memories, TBUF or BBUF (20_memory.md R40): the elements that differ from
`Memory.unlisted`, by strictly rising index (`Memory.wf`, Machine/Memory.lean). -/
abbrev Memory := List Host.Cell

/-- What the host does to the block (20_memory.md R40); reading the read port is no event (R44). DESIGN CHOICE
(log entries 1 and 4). -/
inductive HostEvent where
  /-- A command word issued on the command port (30_encoding.md R60). -/
  | command (w : Word)
  /-- The reset input is asserted and released, as one action between commands (70_reset_and_hazards.md R160;
  93_implementation_defined.md I12); `issued` is a word the host issues meanwhile, which has no effect (R160). -/
  | reset (issued : Option Word)
  deriving DecidableEq, Repr

/-- Why a step would fault: never. The spec gives the block no event that stops it: an exception is an outcome
code in a status register and the next word is executed (60_exceptions.md R148, R149), so there is no
constructor. Safe (log entry 10). -/
inductive Fault where
  deriving DecidableEq, Repr

/-- Why a step would have no meaning. -/
inductive Refusal where
  /-- Raised by an arm of `exec` whose command has no meaning yet; no arm is left so. Safe. -/
  | notModelled (mnemonic : String)
  deriving DecidableEq, Repr

/-- The architectural state of 10_state.md R20, field by field, and two fields of the model's own. -/
structure State where
  /-- The implementation parameter TEXT_MAX (00_scope.md R6): the model's own carrier of a constant that no
  command writes (R32; log entry 3). -/
  cfg : Config
  /-- CRC (R21). -/
  crc : Half
  /-- CSUM (R22). -/
  csum : Byte
  /-- TBUF (R23), the elements at and beyond TLEN included. -/
  tbuf : Memory
  /-- TLEN (R23). -/
  tlen : Half
  /-- BBUF (R24), the elements at and beyond BCOUNT included. -/
  bbuf : Memory
  /-- BCOUNT (R24). -/
  bcount : Half
  /-- CMDSTAT (R25). -/
  cmdstat : Half
  /-- RES_STATUS (R26). -/
  resStatus : Half
  /-- RES_FAULTS (R27). -/
  resFaults : Half
  /-- RES_DEV (R28). -/
  resDev : Byte
  /-- RES_CMD (R28). -/
  resCmd : Byte
  /-- RES_LEN (R28). -/
  resLen : Byte
  /-- RES_CSUM_GIVEN (R29). -/
  resCsumGiven : Byte
  /-- RES_CSUM_CALC (R29). -/
  resCsumCalc : Byte
  /-- RES_CRC_GIVEN (R30). -/
  resCrcGiven : Half
  /-- RES_CRC_CALC (R30). -/
  resCrcCalc : Half
  /-- RES_FLAGS (R31). -/
  resFlags : Half
  /-- The host's events not yet taken, oldest first: the model's own (00_scope.md R5, "in the order issued"; log
  entry 1). -/
  pending : List HostEvent
  deriving DecidableEq, Repr

/-- The state after reset of a block built with parameter `cfg` (70_reset_and_hazards.md R160): nothing listed in
either buffer (log entry 5), no event waiting (log entry 1). -/
def State.resetWith (cfg : Config) : State where
  cfg := cfg
  crc := 0xFFFF
  csum := 0x00
  tbuf := []
  tlen := 0
  bbuf := []
  bcount := 0
  cmdstat := 0x0000
  resStatus := 0x0000
  resFaults := 0x0000
  resDev := 0x00
  resCmd := 0x00
  resLen := 0x00
  resCsumGiven := 0x00
  resCsumCalc := 0x00
  resCrcGiven := 0x0000
  resCrcCalc := 0x0000
  resFlags := 0x0000
  pending := []

/-- The state after reset at the default parameter, TEXT_MAX = 2048 (R160, 00_scope.md R6; log entry 3). -/
def State.reset : State := State.resetWith Config.default

end Sys2Proof.Machine
end

