-- ==== Sys2Proof/Machine/Flags.lean ====
section
/-!
DEFINITION. The status words, bit by bit: CMDSTAT (10_state.md R25), RES_STATUS (R26), RES_FAULTS (R27, R38) and
RES_FLAGS (R31). Each is written whole from its fields, with reserved bits 0, and read back field by field.
-/
namespace Sys2Proof.Machine

/-- One bit of a status word: `v << k`. -/
def bitAt (v : Bool) (k : Nat) : Half := (BitVec.ofBool v).setWidth 16 <<< k

/-! ### CMDSTAT (10_state.md R25) -/

/-- The command-level outcomes (60_exceptions.md R140). -/
inductive CmdOutcome where
  /-- The command was executed. -/
  | ok
  /-- IllegalCommand (R141). -/
  | illegal
  /-- TextFull (R142). -/
  | textFull
  deriving DecidableEq, Repr

/-- The code in CMDSTAT.OUTCOME; 3 is reserved and never written. -/
def CmdOutcome.code : CmdOutcome → BitVec 2
  | .ok => 0
  | .illegal => 1
  | .textFull => 2

/-- `(zext_16(op) << 8) | OUTCOME` (30_encoding.md R68), with bits 7:2 zero. -/
def cmdstatWord (op : Byte) (o : CmdOutcome) : Half := (zext16 op <<< 8) ||| o.code.setWidth 16

/-- CMDSTAT.OUTCOME. -/
def cmdOutcomeField (w : Half) : BitVec 2 := w.extractLsb' 0 2

/-- CMDSTAT.LASTOP. -/
def lastOpField (w : Half) : Byte := w.extractLsb' 8 8

/-! ### RES_STATUS (10_state.md R26) -/

/-- The result-level outcomes (60_exceptions.md R140). -/
inductive ResOutcome where
  /-- No decode since reset. -/
  | none
  /-- The decode or frame command succeeded. -/
  | ok
  /-- MalformedHex (R143). -/
  | malformedHex
  /-- InvalidFrame (R144). -/
  | invalidFrame
  deriving DecidableEq, Repr

/-- The code in RES_STATUS.OUTCOME. -/
def ResOutcome.code : ResOutcome → BitVec 2
  | .none => 0
  | .ok => 1
  | .malformedHex => 2
  | .invalidFrame => 3

/-- RES_STATUS from its fields: `RES_OP << 8 | INT_V << 4 | PAY_V << 3 | HDR_V << 2 | OUTCOME`, bits 7:5 zero. -/
def resStatusWord (op : Byte) (intV payV hdrV : Bool) (o : ResOutcome) : Half :=
  (zext16 op <<< 8) ||| bitAt intV 4 ||| bitAt payV 3 ||| bitAt hdrV 2 ||| o.code.setWidth 16

/-- RES_STATUS.OUTCOME. -/
def resOutcomeField (w : Half) : BitVec 2 := w.extractLsb' 0 2

/-- RES_STATUS.HDR_V. -/
def hdrVField (w : Half) : Bool := w.getLsbD 2

/-- RES_STATUS.PAY_V. -/
def payVField (w : Half) : Bool := w.getLsbD 3

/-- RES_STATUS.INT_V. -/
def intVField (w : Half) : Bool := w.getLsbD 4

/-- RES_STATUS.RES_OP. -/
def resOpField (w : Half) : Byte := w.extractLsb' 8 8

/-! ### RES_FAULTS (10_state.md R27) -/

/-- The six fault codes, in the fixed check order (10_state.md R38). -/
inductive FaultCode where
  /-- The sanitized text has odd length (40_hexcodec.md R84). -/
  | hexOdd
  /-- A sanitized character is no hex digit (40_hexcodec.md R84). -/
  | hexDigit
  /-- Fewer than 8 bytes (43_frame.md R111). -/
  | tooShort
  /-- No first byte, or it is not 0x7E (43_frame.md R111). -/
  | badStart
  /-- No last byte, or it is not 0x7E (43_frame.md R111). -/
  | badEnd
  /-- At least 8 bytes, and `length + 8` is not their number (43_frame.md R111). -/
  | sizeMismatch
  deriving DecidableEq, Repr

/-- The bit of RES_FAULTS a fault code sets. -/
def FaultCode.bit : FaultCode → Nat
  | .hexOdd => 0
  | .hexDigit => 1
  | .tooShort => 2
  | .badStart => 3
  | .badEnd => 4
  | .sizeMismatch => 5

/-- All fault codes in ascending bit order. -/
def FaultCode.all : List FaultCode := [.hexOdd, .hexDigit, .tooShort, .badStart, .badEnd, .sizeMismatch]

/-- The bit of one fault code, set when the code is among the recorded faults. -/
def faultBit (f : List FaultCode) (c : FaultCode) : Half := bitAt (decide (c ∈ f)) c.bit

/-- `faultBits(f)` (43_frame.md R115): one bit per recorded fault, bits 15:6 zero. -/
def faultBits (f : List FaultCode) : Half :=
  faultBit f .hexOdd ||| faultBit f .hexDigit ||| faultBit f .tooShort ||| faultBit f .badStart ||| faultBit f .badEnd
    ||| faultBit f .sizeMismatch

/-- The ordered error list: RES_FAULTS read in ascending bit order (10_state.md R38). -/
def errorList (w : Half) : List FaultCode := FaultCode.all.filter (fun c => w.getLsbD c.bit)

/-! ### RES_FLAGS (10_state.md R31) -/

/-- `(crcValid << 1) | csumValid` (43_frame.md R115), bits 15:2 zero. -/
def flagsWord (crcValid csumValid : Bool) : Half := bitAt crcValid 1 ||| bitAt csumValid 0

/-- RES_FLAGS.CSUM_VALID. -/
def csumValidField (w : Half) : Bool := w.getLsbD 0

/-- RES_FLAGS.CRC_VALID. -/
def crcValidField (w : Half) : Bool := w.getLsbD 1

end Sys2Proof.Machine
end

