-- ==== Sys2Proof/Machine/Memory.lean ====
section
/-!
DEFINITION. The internal memories TBUF and BBUF (20_memory.md R40, R50): one element read, one element written,
and runs of elements. A memory lists its elements by strictly rising index and lists none that equals what an
unlisted element reads as, so equal memories are equal lists.
-/
namespace Sys2Proof.Machine

/-- What an element that nothing has written reads as. The spec leaves it unspecified and unobservable
(70_reset_and_hazards.md R161). DESIGN CHOICE (log entry 5). -/
def Memory.unlisted : Byte := 0x00

/-- Every listed index is at least `lo`, indices rise strictly, and no entry equals `Memory.unlisted`. -/
def Memory.wfFrom (lo : Nat) : Memory → Bool
  | [] => true
  | (k, v) :: rest => decide (lo ≤ k) && decide (v ≠ Memory.unlisted) && Memory.wfFrom (k + 1) rest

/-- The canonical form. -/
def Memory.wf (m : Memory) : Bool := Memory.wfFrom 0 m

/-- Every listed index is below the capacity `n`. -/
def Memory.below (n : Nat) (m : Memory) : Bool := m.all (fun c => decide (c.1 < n))

/-- Element `a`. -/
def Memory.read : Memory → Nat → Byte
  | [], _ => Memory.unlisted
  | (k, v) :: rest, a => if k = a then v else Memory.read rest a

/-- The memory without element `a`, which then reads as unlisted. -/
def Memory.erase (m : Memory) (a : Nat) : Memory := m.filter (fun c => !(c.1 == a))

/-- The memory with the entry `(a, v)` put before the first entry of a higher index. -/
def Memory.insert : Memory → Nat → Byte → Memory
  | [], a, v => [(a, v)]
  | (k, u) :: rest, a, v => if a < k then (a, v) :: (k, u) :: rest else (k, u) :: Memory.insert rest a v

/-- `m[a] <- v`, keeping the canonical form: writing what an unlisted element reads as removes the entry. -/
def Memory.write (m : Memory) (a : Nat) (v : Byte) : Memory :=
  if v = Memory.unlisted then Memory.erase m a else Memory.insert (Memory.erase m a) a v

/-- `m[i] <- bs[0]`, `m[i + 1] <- bs[1]`, and so on. -/
def Memory.writeSeq : Memory → Nat → List Byte → Memory
  | m, _, [] => m
  | m, i, b :: bs => Memory.writeSeq (Memory.write m i b) (i + 1) bs

/-- The elements `m[0..n)` (00_scope.md R9). -/
def Memory.readSeq (m : Memory) (n : Nat) : List Byte := (List.range n).map (Memory.read m)

end Sys2Proof.Machine
end

