-- ==== Sys2Proof/Machine/Operands.lean ====
section
/-!
DEFINITION. Where a command's operands come from (10_state.md R33): the command word itself (an operand of class
b8 or imm16 is used as is, 30_encoding.md R61, so the decoder has delivered it) or the block's two buffers, read
here. There is no other operand form.
-/
namespace Sys2Proof.Machine

/-- The current text, `TBUF[0..TLEN)` (10_state.md R23). -/
def State.text (s : State) : List Byte := Memory.readSeq s.tbuf s.tlen.toNat

/-- The current byte sequence, `BBUF[0..BCOUNT)` (10_state.md R24). -/
def State.bytes (s : State) : List Byte := Memory.readSeq s.bbuf s.bcount.toNat

end Sys2Proof.Machine
end

