-- ==== Sys2Proof/Machine/Ops.lean ====
section
/-!
DEFINITION. The named operations the commands share: replacing the text and the byte sequence, clearing the result
registers, the end of a command, the block's four exceptions (60_exceptions.md R140-R144) and reset. The block has
no trap entry and no return (R148, R149): taking an exception is exactly what the four `raise` operations write.
-/
namespace Sys2Proof.Machine

/-! ### Buffers -/

/-- Replace the text: `TBUF[i] <- t[i]` for each `i`, then `TLEN <- len(t)` (40_hexcodec.md R88). -/
def State.putText (t : List Byte) (s : State) : State :=
  { s with tbuf := Memory.writeSeq s.tbuf 0 t, tlen := BitVec.ofNat 16 t.length }

/-- Append one character: `TBUF[TLEN] <- c; TLEN <- TLEN + 1` (40_hexcodec.md R87). -/
def State.appendChar (c : Byte) (s : State) : State :=
  { s with tbuf := Memory.write s.tbuf s.tlen.toNat c, tlen := s.tlen + 1 }

/-- Replace the byte sequence: `BBUF[i] <- b[i]` for each `i`, then `BCOUNT <- len(b)` (40_hexcodec.md R89,
43_frame.md R115). -/
def State.putBytes (b : List Byte) (s : State) : State :=
  { s with bbuf := Memory.writeSeq s.bbuf 0 b, bcount := BitVec.ofNat 16 b.length }

/-! ### Results -/

/-- `clearResults(op)`, which every decode and frame command applies first (10_state.md R36). -/
def State.clearResults (op : Byte) (s : State) : State :=
  { s with
    resStatus := resStatusWord op false false false .none
    resFaults := 0, resDev := 0, resCmd := 0, resLen := 0
    resCsumGiven := 0, resCsumCalc := 0, resCrcGiven := 0, resCrcCalc := 0, resFlags := 0 }

/-! ### The end of a command -/

/-- The last write of every command word: `CMDSTAT <- (zext_16(OPC) << 8) | OUTCOME` (30_encoding.md R68). -/
def State.retire (op : Byte) (o : CmdOutcome) (s : State) : State :=
  { s with cmdstat := cmdstatWord op o }

/-! ### Exceptions -/

/-- IllegalCommand (60_exceptions.md R141): CMDSTAT records the word's opcode byte and nothing else changes. -/
def State.raiseIllegal (op : Byte) (s : State) : State := s.retire op .illegal

/-- TextFull (60_exceptions.md R142): the character is dropped and CMDSTAT becomes 0x1102. -/
def State.raiseTextFull (op : Byte) (s : State) : State := s.retire op .textFull

/-- MalformedHex(f), after `clearResults(op)` (60_exceptions.md R143). -/
def State.raiseMalformedHex (op : Byte) (f : List FaultCode) (s : State) : State :=
  { s with
    bcount := 0
    resFaults := faultBits f
    resStatus := resStatusWord op false false false .malformedHex }

/-- InvalidFrame(f), after `clearResults(op)` and the hex stage (60_exceptions.md R144). -/
def State.raiseInvalidFrame (op : Byte) (f : List FaultCode) (s : State) : State :=
  { s with
    resFaults := faultBits f
    resStatus := resStatusWord op false false false .invalidFrame }

/-! ### Reset -/

/-- The reset value in every register (10_state.md R21-R31, 70_reset_and_hazards.md R160). Buffer contents stay
(44_control.md R131; log entry 6); the parameter and the events the host has yet to issue are not the block's. -/
def State.applyReset (s : State) : State :=
  { s with
    crc := 0xFFFF, csum := 0x00, tlen := 0, bcount := 0, cmdstat := 0x0000
    resStatus := 0x0000, resFaults := 0x0000, resDev := 0x00, resCmd := 0x00, resLen := 0x00
    resCsumGiven := 0x00, resCsumCalc := 0x00, resCrcGiven := 0x0000, resCrcCalc := 0x0000, resFlags := 0x0000 }

end Sys2Proof.Machine
end

