-- ==== Sys2Proof/Machine/Control.lean ====
section
/-!
DEFINITION. The control commands (44_control.md R130, R131).
-/
namespace Sys2Proof.Machine

/-- NOP (44_control.md R130): only CMDSTAT changes. -/
def execNop (s : State) : Host.Outcome State Fault Refusal :=
  .next (State.retire Opc.nop .ok s)

/-- SRST (44_control.md R131): the reset value in every register, then CMDSTAT = 0x0100. -/
def execSrst (s : State) : Host.Outcome State Fault Refusal :=
  .next (State.retire Opc.srst .ok (State.applyReset s))

end Sys2Proof.Machine
end

