-- ==== Sys2Proof/Machine/Checksum.lean ====
section
/-!
DEFINITION. The additive checksum accumulator (41_checksum.md): its pure functions and its two commands.
-/
namespace Sys2Proof.Machine

/-- `csumStep(s, b) = (s + b) mod 256` (41_checksum.md R95). -/
def csumStep (s b : Byte) : Byte := s + b

/-- `checksum(bytes) = foldl(csumStep, 0, bytes)` (41_checksum.md R96). -/
def checksum (bytes : List Byte) : Byte := bytes.foldl csumStep 0

/-- CSUM.CLEAR (41_checksum.md R97). -/
def execCsumClear (s : State) : Host.Outcome State Fault Refusal :=
  .next (State.retire Opc.csumClear .ok { s with csum := 0x00 })

/-- CSUM.BYTE (41_checksum.md R98). -/
def execCsumByte (b : Byte) (s : State) : Host.Outcome State Fault Refusal :=
  .next (State.retire Opc.csumByte .ok { s with csum := csumStep s.csum b })

end Sys2Proof.Machine
end

