-- ==== Sys2Proof/Machine/Constants.lean ====
section
/-!
DEFINITION. The fixed constants of 00_scope.md R7 and the character codes of R9.
-/
namespace Sys2Proof.Machine

/-- `DELIM`, the frame delimiter. -/
abbrev delim : Byte := 0x7E#8

/-- `FIXED`, the number of fixed bytes of a frame: a frame of length `L` has `L + 8` bytes (43_frame.md R110). -/
abbrev fixedBytes : Nat := 8

/-- `MIN_FRAME`, the byte count of a frame with no payload. -/
abbrev minFrame : Nat := 8

/-- `POLY`, the CRC polynomial. -/
abbrev poly : Half := 0x1021#16

/-- `CRC_INIT`, the initial CRC value of the frame validator. -/
abbrev crcInitial : Half := 0xFFFF#16

/-- The code of the digit `0` (R9). -/
abbrev chZero : Byte := 0x30#8

/-- The code of `x` (R9). -/
abbrev chLowerX : Byte := 0x78#8

/-- The code of `X` (R9). -/
abbrev chUpperX : Byte := 0x58#8

/-- The code of the separator `|` (R9). -/
abbrev chBar : Byte := 0x7C#8

end Sys2Proof.Machine
end

