-- ==== Sys2Proof/Machine/Crc.lean ====
section
/-!
DEFINITION. The CRC-16-CCITT generator (42_crc.md): its pure functions and its two commands.
-/
namespace Sys2Proof.Machine

/-- One of the eight iterations of `crcStep`: shift left by one, and exclusive-or the polynomial exactly when bit 15
was set before the shift (42_crc.md R100). -/
def crcShift (r : Half) : Half := if r.getLsbD 15 then (r <<< 1) ^^^ poly else r <<< 1

/-- `n` iterations. -/
def crcShifts : Nat → Half → Half
  | 0, r => r
  | n + 1, r => crcShifts n (crcShift r)

/-- `crcStep(c, b)` (42_crc.md R100): the byte into the high byte of the register, then eight iterations. -/
def crcStep (c : Half) (b : Byte) : Half := crcShifts 8 (c ^^^ (zext16 b <<< 8))

/-- `crc16(bytes, init) = foldl(crcStep, init, bytes)` (42_crc.md R101). -/
def crc16 (bytes : List Byte) (init : Half) : Half := bytes.foldl crcStep init

/-- CRC.INIT (42_crc.md R102). -/
def execCrcInit (v : Half) (s : State) : Host.Outcome State Fault Refusal :=
  .next (State.retire Opc.crcInit .ok { s with crc := v })

/-- CRC.BYTE (42_crc.md R103). -/
def execCrcByte (b : Byte) (s : State) : Host.Outcome State Fault Refusal :=
  .next (State.retire Opc.crcByte .ok { s with crc := crcStep s.crc b })

end Sys2Proof.Machine
end

