-- ==== Sys2Proof/Machine/HexText.lean ====
section
/-!
DEFINITION. The hex decoder's pure functions (40_hexcodec.md R80-R84).
-/
namespace Sys2Proof.Machine

/-- `isSep(c)`: the six ASCII whitespace codes and `|` (40_hexcodec.md R80). -/
def isSep (c : Byte) : Bool :=
  c = 0x09#8 ∨ c = 0x0A#8 ∨ c = 0x0B#8 ∨ c = 0x0C#8 ∨ c = 0x0D#8 ∨ c = 0x20#8 ∨ c = chBar

/-- `isHexDigit(c)`: the ranges of digits, upper-case and lower-case letters (40_hexcodec.md R81). -/
def isHexDigit (c : Byte) : Bool :=
  (0x30#8 ≤ c ∧ c ≤ 0x39#8) ∨ (0x41#8 ≤ c ∧ c ≤ 0x46#8) ∨ (0x61#8 ≤ c ∧ c ≤ 0x66#8)

/-- `hexVal(c)` of a hex digit, a 4-bit value (40_hexcodec.md R81). It is not applied to any other code (log
entry 8). -/
def hexVal (c : Byte) : BitVec 4 :=
  if c ≤ 0x39#8 then (c - 0x30#8).setWidth 4
  else if c ≤ 0x46#8 then (c - 0x41#8 + 10#8).setWidth 4
  else (c - 0x61#8 + 10#8).setWidth 4

/-- Two adjacent characters that are a `0x` or `0X` pair (40_hexcodec.md R82). -/
def is0xPair (a b : Byte) : Bool := a = chZero ∧ (b = chLowerX ∨ b = chUpperX)

/-- `strip0x(s)`: drop every `0x` pair, left to right, without re-examining (40_hexcodec.md R82). -/
def strip0x : List Byte → List Byte
  | [] => []
  | [a] => [a]
  | a :: b :: rest => if is0xPair a b then strip0x rest else a :: strip0x (b :: rest)

/-- `sanitize(s) = filter(not isSep, strip0x(s))` (40_hexcodec.md R83). -/
def sanitize (s : List Byte) : List Byte := (strip0x s).filter (fun c => !isSep c)

/-- One byte from two hex digits, the first the high nibble (20_memory.md R46, 40_hexcodec.md R84). -/
def hexByte (hi lo : Byte) : Byte := hexVal hi ++ hexVal lo

/-- One byte per two characters, in text order (40_hexcodec.md R84); applied to texts of even length. -/
def hexPairs : List Byte → List Byte
  | hi :: lo :: rest => hexByte hi lo :: hexPairs rest
  | _ => []

/-- What `hexDecode` returns (40_hexcodec.md R84). -/
inductive HexResult where
  /-- `Ok(bytes)`. -/
  | ok (b : List Byte)
  /-- `Malformed(f)`. -/
  | malformed (f : List FaultCode)
  deriving DecidableEq, Repr

/-- The faults of a sanitized text `t`, both recorded when both hold (40_hexcodec.md R84). -/
def hexFaults (t : List Byte) : List FaultCode :=
  (if t.length % 2 = 1 then [.hexOdd] else []) ++ (if t.any (fun c => !isHexDigit c) then [.hexDigit] else [])

/-- `hexDecode(s)` (40_hexcodec.md R84). -/
def hexDecode (s : List Byte) : HexResult :=
  if hexFaults (sanitize s) = [] then .ok (hexPairs (sanitize s)) else .malformed (hexFaults (sanitize s))

end Sys2Proof.Machine
end

