-- ==== Sys2Proof/Machine/FrameCheck.lean ====
section
/-!
DEFINITION. The frame validator's pure functions (43_frame.md R110-R114): layout, structural check, locatability,
integrity, and what each frame command fails on and populates.
-/
namespace Sys2Proof.Machine

/-- `b[i]`. Every use is at an index inside `b` (43_frame.md R114; log entry 8). -/
def byteAt (b : List Byte) (i : Nat) : Byte := b.getD i 0

/-- The declared length `L = b[3]` as a number (43_frame.md R112). -/
def frameLen (b : List Byte) : Nat := (byteAt b 3).toNat

/-- `structCheck(b)`: every structural fault, in the fixed order (43_frame.md R111). -/
def structCheck (b : List Byte) : List FaultCode :=
  (if b.length < minFrame then [.tooShort] else [])
    ++ (if b.length = 0 ∨ byteAt b 0 ≠ delim then [.badStart] else [])
    ++ (if b.length = 0 ∨ byteAt b (b.length - 1) ≠ delim then [.badEnd] else [])
    ++ (if minFrame ≤ b.length ∧ frameLen b + fixedBytes ≠ b.length then [.sizeMismatch] else [])

/-- The sequence overruns: the declared length asks for more bytes than there are (43_frame.md R112). -/
def overruns (b : List Byte) : Bool := minFrame ≤ b.length ∧ b.length < frameLen b + fixedBytes

/-- The sequence is locatable: every fixed field lies inside it (43_frame.md R112). -/
def locatable (b : List Byte) : Bool := minFrame ≤ b.length ∧ frameLen b + fixedBytes ≤ b.length

/-- The integrity region, bytes `1` through `3 + L` (43_frame.md R113). -/
def region (b : List Byte) : List Byte := (b.drop 1).take (3 + frameLen b)

/-- What `integrity(b)` returns (43_frame.md R113). -/
structure Integrity where
  /-- `csumGiven` -/
  csumGiven : Byte
  /-- `csumCalc` -/
  csumCalc : Byte
  /-- `crcGiven` -/
  crcGiven : Half
  /-- `crcCalc` -/
  crcCalc : Half
  deriving DecidableEq, Repr

/-- `csumValid` (43_frame.md R113). -/
def Integrity.csumValid (r : Integrity) : Bool := r.csumGiven = r.csumCalc

/-- `crcValid` (43_frame.md R113). -/
def Integrity.crcValid (r : Integrity) : Bool := r.crcGiven = r.crcCalc

/-- `integrity(b)` of a locatable sequence (43_frame.md R113); crcHigh comes first (20_memory.md R45). -/
def integrity (b : List Byte) : Integrity where
  csumGiven := byteAt b (4 + frameLen b)
  csumCalc := checksum (region b)
  crcGiven := byteAt b (5 + frameLen b) ++ byteAt b (6 + frameLen b)
  crcCalc := crc16 (region b) crcInitial

/-- The four frame commands (43_frame.md R114). -/
inductive FrameCmd where
  /-- FRM.HEADER, the source's decodeHeader. -/
  | header
  /-- FRM.PAYLOAD, the source's decodePayload. -/
  | payload
  /-- FRM.VALIDATE, the source's validate. -/
  | validate
  /-- FRM.FULL, the source's decodeFull. -/
  | full
  deriving DecidableEq, Repr

/-- The opcode of a frame command (30_encoding.md R62). -/
def FrameCmd.opcode : FrameCmd → Byte
  | .header => Opc.frmHeader
  | .payload => Opc.frmPayload
  | .validate => Opc.frmValidate
  | .full => Opc.frmFull

/-- `fails(op, b, f)`: when a frame command ends in InvalidFrame (43_frame.md R114). -/
def FrameCmd.fails (k : FrameCmd) (b : List Byte) (f : List FaultCode) : Bool :=
  match k with
  | .header => FaultCode.tooShort ∈ f ∨ FaultCode.badStart ∈ f ∨ FaultCode.badEnd ∈ f
  | .payload => FaultCode.tooShort ∈ f ∨ FaultCode.badStart ∈ f ∨ FaultCode.badEnd ∈ f ∨ overruns b
  | .validate => f ≠ []
  | .full => FaultCode.tooShort ∈ f ∨ overruns b

/-- Does a successful command populate the payload? (43_frame.md R114, R115) -/
def FrameCmd.populatesPayload : FrameCmd → Bool
  | .header => false
  | .payload => true
  | .validate => true
  | .full => true

/-- Does a successful command populate the integrity fields? (43_frame.md R114, R115) -/
def FrameCmd.populatesIntegrity : FrameCmd → Bool
  | .header => false
  | .payload => false
  | .validate => true
  | .full => true

/-- The frame of a header and payload with correct integrity fields (43_frame.md R121). -/
def buildFrame (dev cmd : Byte) (p : List Byte) : List Byte :=
  let r := dev :: cmd :: BitVec.ofNat 8 p.length :: p
  let c := crc16 r crcInitial
  delim :: (r ++ [checksum r, c.extractLsb' 8 8, c.extractLsb' 0 8, delim])

end Sys2Proof.Machine
end

