-- ==== Sys2Proof/Machine/Frame.lean ====
section
/-!
DEFINITION. The frame validator's common procedure (43_frame.md R115) and its four commands (R116-R119).
-/
namespace Sys2Proof.Machine

/-- The result of a frame command that does not fail: header, payload mark and integrity fields as the command
populates them, and the recorded faults (43_frame.md R114, R115). -/
def State.populate (k : FrameCmd) (b : List Byte) (s : State) : State :=
  { s with
    resStatus := resStatusWord k.opcode k.populatesIntegrity k.populatesPayload true .ok
    resFaults := faultBits (structCheck b)
    resDev := byteAt b 1
    resCmd := byteAt b 2
    resLen := byteAt b 3
    resCsumGiven := if k.populatesIntegrity then (integrity b).csumGiven else 0
    resCsumCalc := if k.populatesIntegrity then (integrity b).csumCalc else 0
    resCrcGiven := if k.populatesIntegrity then (integrity b).crcGiven else 0
    resCrcCalc := if k.populatesIntegrity then (integrity b).crcCalc else 0
    resFlags := if k.populatesIntegrity then flagsWord (integrity b).crcValid (integrity b).csumValid else 0 }

/-- `frameOp(op)` before CMDSTAT is written (43_frame.md R115). -/
def frameOp (k : FrameCmd) (s : State) : State :=
  match hexDecode (State.text s) with
  | .malformed f => State.raiseMalformedHex k.opcode f (State.clearResults k.opcode s)
  | .ok b =>
    if k.fails b (structCheck b) then
      State.raiseInvalidFrame k.opcode (structCheck b) (State.putBytes b (State.clearResults k.opcode s))
    else State.populate k b (State.putBytes b (State.clearResults k.opcode s))

/-- FRM.HEADER (43_frame.md R116). -/
def execFrmHeader (s : State) : Host.Outcome State Fault Refusal :=
  .next (State.retire Opc.frmHeader .ok (frameOp .header s))

/-- FRM.PAYLOAD (43_frame.md R117). -/
def execFrmPayload (s : State) : Host.Outcome State Fault Refusal :=
  .next (State.retire Opc.frmPayload .ok (frameOp .payload s))

/-- FRM.VALIDATE (43_frame.md R118). -/
def execFrmValidate (s : State) : Host.Outcome State Fault Refusal :=
  .next (State.retire Opc.frmValidate .ok (frameOp .validate s))

/-- FRM.FULL (43_frame.md R119). -/
def execFrmFull (s : State) : Host.Outcome State Fault Refusal :=
  .next (State.retire Opc.frmFull .ok (frameOp .full s))

end Sys2Proof.Machine
end

