-- ==== Sys2Proof/Machine/HexCodec.lean ====
section
/-!
DEFINITION. The hex decoder's four commands (40_hexcodec.md R86-R89).
-/
namespace Sys2Proof.Machine

/-- TXT.CLEAR (40_hexcodec.md R86): TBUF elements keep their old values. -/
def execTxtClear (s : State) : Host.Outcome State Fault Refusal :=
  .next (State.retire Opc.txtClear .ok { s with tlen := 0 })

/-- TXT.PUSH (40_hexcodec.md R87): TextFull when the buffer is full, otherwise append. -/
def execTxtPush (c : Byte) (s : State) : Host.Outcome State Fault Refusal :=
  if s.tlen.toNat = s.cfg.textMax then .next (State.raiseTextFull Opc.txtPush s)
  else .next (State.retire Opc.txtPush .ok (State.appendChar c s))

/-- TXT.SANITIZE (40_hexcodec.md R88). -/
def execTxtSanitize (s : State) : Host.Outcome State Fault Refusal :=
  .next (State.retire Opc.txtSanitize .ok (State.putText (sanitize (State.text s)) s))

/-- The body of HEX.DECODE before CMDSTAT is written (40_hexcodec.md R89). -/
def hexDecodeOp (s : State) : State :=
  match hexDecode (State.text s) with
  | .malformed f => State.raiseMalformedHex Opc.hexDecode f (State.clearResults Opc.hexDecode s)
  | .ok b =>
    { State.putBytes b (State.clearResults Opc.hexDecode s) with
      resStatus := resStatusWord Opc.hexDecode false false false .ok }

/-- HEX.DECODE (40_hexcodec.md R89). -/
def execHexDecode (s : State) : Host.Outcome State Fault Refusal :=
  .next (State.retire Opc.hexDecode .ok (hexDecodeOp s))

end Sys2Proof.Machine
end

