-- ==== Sys2Proof/Machine/Dispatch.lean ====
section
/-!
DEFINITION. The step of one decoded command (30_encoding.md R68): one arm per command.
-/
namespace Sys2Proof.Machine

def exec (i : Instr) (s : State) : Host.Outcome State Fault Refusal :=
  match i with
  | .nop => Sys2Proof.Machine.execNop s
  | .srst => Sys2Proof.Machine.execSrst s
  | .txtClear => Sys2Proof.Machine.execTxtClear s
  | .txtPush c => Sys2Proof.Machine.execTxtPush c s
  | .txtSanitize => Sys2Proof.Machine.execTxtSanitize s
  | .hexDecode => Sys2Proof.Machine.execHexDecode s
  | .csumClear => Sys2Proof.Machine.execCsumClear s
  | .csumByte b => Sys2Proof.Machine.execCsumByte b s
  | .crcInit v => Sys2Proof.Machine.execCrcInit v s
  | .crcByte b => Sys2Proof.Machine.execCrcByte b s
  | .frmHeader => Sys2Proof.Machine.execFrmHeader s
  | .frmPayload => Sys2Proof.Machine.execFrmPayload s
  | .frmValidate => Sys2Proof.Machine.execFrmValidate s
  | .frmFull => Sys2Proof.Machine.execFrmFull s

end Sys2Proof.Machine
end

