-- ==== Sys2Proof/Machine/Event.lean ====
section
/-!
DEFINITION. What the block does with one event of the host: a command word (30_encoding.md R68), the reset input
(70_reset_and_hazards.md R160), and taking the oldest event (00_scope.md R5).
-/
namespace Sys2Proof.Machine

/-- `step(w)` of 30_encoding.md R68: an illegal word raises IllegalCommand, a legal one is executed. -/
def runWord (w : Word) (s : State) : Host.Outcome State Fault Refusal :=
  match decode w with
  | .legal i => exec i s
  | .illegal op => .next (State.raiseIllegal op s)

/-- One event: a command word, or the reset input, during which a command issued has no effect (R160). -/
def runEvent (e : HostEvent) (s : State) : Host.Outcome State Fault Refusal :=
  match e with
  | .command w => runWord w s
  | .reset _ => .next (State.applyReset s)

/-- Take the host's oldest event; with none waiting the block holds its state (60_exceptions.md R155; log entry
2). -/
def takeEvent (s : State) : Host.Outcome State Fault Refusal :=
  match s.pending with
  | [] => .next s
  | e :: rest => runEvent e { s with pending := rest }

/-- The state with a command word as the host's next event. -/
def State.issueNext (w : Word) (s : State) : State := { s with pending := .command w :: s.pending }

end Sys2Proof.Machine
end

