-- ==== Sys2Proof/Machine/Step.lean ====
section
/-!
DEFINITION. One step of the block: the host's oldest event, whole (00_scope.md R5, 20_memory.md R51).
-/
namespace Sys2Proof.Machine

/-- One step (00_scope.md R5, 30_encoding.md R68). -/
def step (s : State) : Host.Outcome State Fault Refusal := takeEvent s

/-- The state whose next step takes the command word with these bits (log entry 1): the block fetches nothing
(10_state.md R34), so the word is put in front of the host's events. -/
def State.withFetchWord (s : State) (nbits w : Nat) : State := State.issueNext (tableWord nbits w) s

end Sys2Proof.Machine
end

