-- ==== Sys2Proof/Machine/Asm.lean ====
section
/-!
DEFINITION. Assembly lines (30_encoding.md R69) and the pseudo-instructions (R70), down to command words. The block
sees only the words. What R69 leaves open about a line's text is log entry 9.
-/
namespace Sys2Proof.Machine

/-! ### Statements and their words -/

/-- What one assembly line stands for: a command, or a pseudo-instruction (30_encoding.md R70). -/
inductive AsmStmt where
  /-- A command. -/
  | instr (i : Instr)
  /-- `CRC.START` -/
  | crcStart
  /-- `TXT.LOAD "s"` -/
  | txtLoad (s : List Byte)
  /-- `CRC.BYTES b0, b1, ...` -/
  | crcBytes (bs : List Byte)
  /-- `CSUM.BYTES b0, b1, ...` -/
  | csumBytes (bs : List Byte)
  deriving DecidableEq, Repr

/-- The expansion of a statement into commands (30_encoding.md R70). -/
def AsmStmt.expand : AsmStmt → List Instr
  | .instr i => [i]
  | .crcStart => [.crcInit 0xFFFF]
  | .txtLoad s => .txtClear :: s.map .txtPush
  | .crcBytes bs => bs.map .crcByte
  | .csumBytes bs => bs.map .csumByte

/-- The command words of a statement (30_encoding.md R69, R70). -/
def AsmStmt.words (a : AsmStmt) : List Word := a.expand.map encode

/-! ### Operands -/

/-- Why a line is no statement: an assembly error, never an encoding (30_encoding.md R69). -/
inductive AsmError where
  /-- An unknown mnemonic. -/
  | unknownMnemonic
  /-- A missing operand. -/
  | missingOperand
  /-- An extra operand. -/
  | extraOperand
  /-- An operand out of range: a byte above 255, a 16-bit value above 65535, a character code above 255. -/
  | operandRange
  /-- An operand of a form the command does not take, or text that is no operand. -/
  | badOperand
  /-- A quote that is not closed, or tokens in an order no statement has. -/
  | badLine
  deriving DecidableEq, Repr

/-- An operand as written (30_encoding.md R69, R70). -/
inductive AsmOperand where
  /-- A number, in decimal or `0x` hex. -/
  | num (n : Nat)
  /-- A character in single quotes, by its code. -/
  | chr (code : Nat)
  /-- A string in double quotes, by its character codes. -/
  | str (codes : List Nat)
  deriving DecidableEq, Repr

/-- A code or number as an 8-bit operand. -/
def byteOfNat (n : Nat) : Except AsmError Byte :=
  if n ≤ 255 then .ok (BitVec.ofNat 8 n) else .error .operandRange

/-- An operand of class b8: a number or a character (30_encoding.md R69). -/
def AsmOperand.asByte : AsmOperand → Except AsmError Byte
  | .num n => byteOfNat n
  | .chr n => byteOfNat n
  | .str _ => .error .badOperand

/-- An operand of class imm16: a number only (30_encoding.md R69). -/
def AsmOperand.asHalf : AsmOperand → Except AsmError Half
  | .num n => if n ≤ 65535 then .ok (BitVec.ofNat 16 n) else .error .operandRange
  | .chr _ => .error .badOperand
  | .str _ => .error .badOperand

/-- A list of results, or its first error. -/
def firstError {α : Type} : List (Except AsmError α) → Except AsmError (List α)
  | [] => .ok []
  | x :: xs =>
    match x, firstError xs with
    | .error e, _ => .error e
    | .ok _, .error e => .error e
    | .ok a, .ok as => .ok (a :: as)

/-- Class none: no operand may stand. -/
def stmtNone (i : Instr) : List AsmOperand → Except AsmError AsmStmt
  | [] => .ok (.instr i)
  | _ :: _ => .error .extraOperand

/-- Class b8: exactly one operand. -/
def stmtByte (f : Byte → Instr) : List AsmOperand → Except AsmError AsmStmt
  | [] => .error .missingOperand
  | [o] => o.asByte.map (fun b => .instr (f b))
  | _ :: _ :: _ => .error .extraOperand

/-- Class imm16: exactly one operand. -/
def stmtHalf (f : Half → Instr) : List AsmOperand → Except AsmError AsmStmt
  | [] => .error .missingOperand
  | [o] => o.asHalf.map (fun v => .instr (f v))
  | _ :: _ :: _ => .error .extraOperand

/-- One or more bytes, for CRC.BYTES and CSUM.BYTES (30_encoding.md R70). -/
def stmtBytes (f : List Byte → AsmStmt) : List AsmOperand → Except AsmError AsmStmt
  | [] => .error .missingOperand
  | o :: os => (firstError ((o :: os).map AsmOperand.asByte)).map f

/-- One string, for TXT.LOAD (30_encoding.md R70). -/
def stmtLoad : List AsmOperand → Except AsmError AsmStmt
  | [] => .error .missingOperand
  | [.str codes] => (firstError (codes.map byteOfNat)).map .txtLoad
  | [.num _] => .error .badOperand
  | [.chr _] => .error .badOperand
  | _ :: _ :: _ => .error .extraOperand

/-- The statement of a mnemonic, in upper case, and its operands (30_encoding.md R62, R69, R70). -/
def statement (m : List Char) (ops : List AsmOperand) : Except AsmError AsmStmt :=
  if m = "NOP".toList then stmtNone .nop ops
  else if m = "SRST".toList then stmtNone .srst ops
  else if m = "TXT.CLEAR".toList then stmtNone .txtClear ops
  else if m = "TXT.PUSH".toList then stmtByte .txtPush ops
  else if m = "TXT.SANITIZE".toList then stmtNone .txtSanitize ops
  else if m = "HEX.DECODE".toList then stmtNone .hexDecode ops
  else if m = "CSUM.CLEAR".toList then stmtNone .csumClear ops
  else if m = "CSUM.BYTE".toList then stmtByte .csumByte ops
  else if m = "CRC.INIT".toList then stmtHalf .crcInit ops
  else if m = "CRC.BYTE".toList then stmtByte .crcByte ops
  else if m = "FRM.HEADER".toList then stmtNone .frmHeader ops
  else if m = "FRM.PAYLOAD".toList then stmtNone .frmPayload ops
  else if m = "FRM.VALIDATE".toList then stmtNone .frmValidate ops
  else if m = "FRM.FULL".toList then stmtNone .frmFull ops
  else if m = "CRC.START".toList then
    match ops with
    | [] => .ok .crcStart
    | _ :: _ => .error .extraOperand
  else if m = "TXT.LOAD".toList then stmtLoad ops
  else if m = "CRC.BYTES".toList then stmtBytes .crcBytes ops
  else if m = "CSUM.BYTES".toList then stmtBytes .csumBytes ops
  else .error .unknownMnemonic

/-! ### Text of a line -/

/-- A token of a line. -/
inductive Tok where
  /-- A run of characters that are no blank, comma, semicolon or quote. -/
  | word (cs : List Char)
  /-- A comma. -/
  | comma
  /-- A character in single quotes. -/
  | chr (c : Char)
  /-- A string in double quotes. -/
  | str (cs : List Char)
  deriving DecidableEq, Repr

/-- Where in a line the scanner stands. -/
inductive LexMode where
  /-- Between tokens. -/
  | idle
  /-- Inside a word, its characters so far in reverse. -/
  | word (acc : List Char)
  /-- After an opening single quote. -/
  | chrOpen
  /-- After the character of a single-quoted operand. -/
  | chrClose (c : Char)
  /-- Inside a string, its characters so far in reverse. -/
  | str (acc : List Char)
  deriving DecidableEq, Repr

/-- The single quote. -/
def singleQuote : Char := Char.ofNat 39

/-- The double quote. -/
def doubleQuote : Char := Char.ofNat 34

/-- The characters that only separate tokens: space, tab, carriage return (log entry 9). -/
def isBlank (c : Char) : Bool := c = ' ' ∨ c = Char.ofNat 9 ∨ c = Char.ofNat 13

/-- A token in front of the rest of a scan. -/
def consTok (t : Tok) (r : Except AsmError (List Tok)) : Except AsmError (List Tok) := r.map (fun ts => t :: ts)

/-- Scan a line into tokens; a semicolon outside quotes ends it (30_encoding.md R69). DESIGN CHOICE (log entry 9):
there are no escapes. The first double quote after the opening one closes a string, so a string can hold none, and
whatever stands between two single quotes is the character, so a single quote between two others is 0x27. -/
def lex : LexMode → List Char → Except AsmError (List Tok)
  | .idle, [] => .ok []
  | .word acc, [] => .ok [.word acc.reverse]
  | .chrOpen, [] => .error .badLine
  | .chrClose _, [] => .error .badLine
  | .str _, [] => .error .badLine
  | .idle, c :: cs =>
    if c = ';' then .ok []
    else if isBlank c then lex .idle cs
    else if c = ',' then consTok .comma (lex .idle cs)
    else if c = singleQuote then lex .chrOpen cs
    else if c = doubleQuote then lex (.str []) cs
    else lex (.word [c]) cs
  | .word acc, c :: cs =>
    if c = ';' then .ok [.word acc.reverse]
    else if isBlank c then consTok (.word acc.reverse) (lex .idle cs)
    else if c = ',' then consTok (.word acc.reverse) (consTok .comma (lex .idle cs))
    else if c = singleQuote ∨ c = doubleQuote then .error .badLine
    else lex (.word (c :: acc)) cs
  | .chrOpen, c :: cs => lex (.chrClose c) cs
  | .chrClose c, d :: cs => if d = singleQuote then consTok (.chr c) (lex .idle cs) else .error .badLine
  | .str acc, c :: cs =>
    if c = doubleQuote then consTok (.str acc.reverse) (lex .idle cs) else lex (.str (c :: acc)) cs

/-- The value of a digit in the given base. -/
def digitVal (base : Nat) (c : Char) : Option Nat :=
  let n := c.toNat
  let v := if 48 ≤ n ∧ n ≤ 57 then n - 48 else if 65 ≤ n ∧ n ≤ 70 then n - 55 else if 97 ≤ n ∧ n ≤ 102 then n - 87 else 99
  if v < base then some v else none

/-- The value of a run of digits, after the value of those before it. -/
def digitsVal (base : Nat) : Nat → List Char → Option Nat
  | v, [] => some v
  | v, c :: cs =>
    match digitVal base c with
    | some d => digitsVal base (v * base + d) cs
    | none => none

/-- A number in decimal or `0x` hex (30_encoding.md R69). -/
def numberVal : List Char → Option Nat
  | [] => none
  | '0' :: 'x' :: [] => none
  | '0' :: 'x' :: d :: ds => digitsVal 16 0 (d :: ds)
  | c :: cs => digitsVal 10 0 (c :: cs)

/-- One operand token. DESIGN CHOICE (log entry 9): the code of a quoted character is its Unicode code point, which
for ASCII is the code of 00_scope.md R9; beyond ASCII the spec gives none. -/
def tokOperand : Tok → Except AsmError AsmOperand
  | .word cs =>
    match numberVal cs with
    | some n => .ok (.num n)
    | none => .error .badOperand
  | .comma => .error .badLine
  | .chr c => .ok (.chr c.toNat)
  | .str cs => .ok (.str (cs.map Char.toNat))

/-- The operand tokens of a line, separated by commas. -/
def operandToks : List Tok → Except AsmError (List Tok)
  | [] => .ok []
  | [t] => .ok [t]
  | _ :: [_] => .error .badLine
  | t :: u :: v :: rest =>
    if u = .comma then (operandToks (v :: rest)).map (fun ts => t :: ts) else .error .badLine

/-- The statement of a line's tokens; a line with none has no statement. -/
def toksStatement : List Tok → Except AsmError (Option AsmStmt)
  | [] => .ok none
  | .word m :: rest =>
    match operandToks rest with
    | .error e => .error e
    | .ok ts =>
      match firstError (ts.map tokOperand) with
      | .error e => .error e
      | .ok ops => (statement (m.map Char.toUpper) ops).map some
  | .comma :: _ => .error .badLine
  | .chr _ :: _ => .error .badLine
  | .str _ :: _ => .error .badLine

/-- The command words of one assembly line (30_encoding.md R69, R70). -/
def assembleLine (line : List Char) : Except AsmError (List Word) :=
  match lex .idle line with
  | .error e => .error e
  | .ok ts =>
    match toksStatement ts with
    | .error e => .error e
    | .ok none => .ok []
    | .ok (some a) => .ok a.words

/-- The command words of a program, one line after the other, or its first error. -/
def assemble (lines : List (List Char)) : Except AsmError (List Word) :=
  (firstError (lines.map assembleLine)).map List.flatten

end Sys2Proof.Machine
end

