-- ==== Sys2Proof/Machine/Platform.lean ====
section
/-!
DEFINITION. A platform with any number of block instances (60_exceptions.md R153): each has its own state, and a
command to one is a step of that one.
-/
namespace Sys2Proof.Machine

/-- The instances, each with its own state; their positions are the platform's, not the blocks' (R153; log entry
11). -/
structure Platform where
  /-- The states of the instances. -/
  blocks : List State
  deriving DecidableEq, Repr

/-- One step of instance `k`; a position with no instance has nothing to step. -/
def Platform.stepBlock (p : Platform) (k : Nat) : Host.Outcome Platform Fault Refusal :=
  match p.blocks[k]? with
  | none => .next p
  | some s =>
    match step s with
    | .next t => .next { blocks := p.blocks.set k t }
    | .fault f => .fault f
    | .refused r => .refused r

end Sys2Proof.Machine
end

