-- ==== Sys2Proof/Machine/ReadPort.lean ====
section
/-!
DEFINITION. The read port (20_memory.md R41-R43), the only way the host observes state. It is a function of the
state: a read is no step and changes nothing (R44).
-/
namespace Sys2Proof.Machine

/-- A window read: element `i` below the valid length, 0 at or beyond it (20_memory.md R42). -/
def windowRead (m : Memory) (valid : Half) (i : Nat) : Half :=
  if i < valid.toNat then zext16 (Memory.read m i) else 0

/-- The named registers of the read map; every other address below the windows is reserved and reads 0
(20_memory.md R41, R43). -/
def registerRead (s : State) (a : Nat) : Half :=
  match a with
  | 0x0000 => s.cmdstat
  | 0x0001 => s.crc
  | 0x0002 => zext16 s.csum
  | 0x0003 => s.tlen
  | 0x0004 => s.bcount
  | 0x0005 => BitVec.ofNat 16 s.cfg.textMax
  | 0x0010 => s.resStatus
  | 0x0011 => s.resFaults
  | 0x0012 => zext16 s.resDev
  | 0x0013 => zext16 s.resCmd
  | 0x0014 => zext16 s.resLen
  | 0x0015 => zext16 s.resCsumGiven
  | 0x0016 => zext16 s.resCsumCalc
  | 0x0017 => s.resCrcGiven
  | 0x0018 => s.resCrcCalc
  | 0x0019 => s.resFlags
  | _ => 0

/-- `ReadPort(a)` (20_memory.md R41). -/
def readPort (s : State) (a : Half) : Half :=
  if a.toNat < 0x4000 then registerRead s a.toNat
  else if a.toNat < 0x8000 then windowRead s.bbuf s.bcount (a.toNat - 0x4000)
  else windowRead s.tbuf s.tlen (a.toNat - 0x8000)

end Sys2Proof.Machine
end

