-- ==== Sys2Proof/Machine/Result.lean ====
section
/-!
DEFINITION. The source's Frame entity, read out of the result registers (10_state.md R37, R38). It is a view of the
state for the host, not more state.
-/
namespace Sys2Proof.Machine

/-- The source's Frame entity (10_state.md R37); a field that the producing command did not populate is absent. -/
structure FrameEntity where
  /-- `deviceId`, with HDR_V. -/
  deviceId : Option Byte
  /-- `command`, with HDR_V. -/
  command : Option Byte
  /-- `length`, with HDR_V. -/
  length : Option Byte
  /-- `payload`; empty without PAY_V. -/
  payload : List Byte
  /-- `checksumGiven`, with INT_V. -/
  checksumGiven : Option Byte
  /-- `checksumCalc`, with INT_V. -/
  checksumCalc : Option Byte
  /-- `crcGiven`, with INT_V. -/
  crcGiven : Option Half
  /-- `crcCalc`, with INT_V. -/
  crcCalc : Option Half
  /-- `checksumValid`, with INT_V. -/
  checksumValid : Option Bool
  /-- `crcValid`, with INT_V. -/
  crcValid : Option Bool
  /-- `errors`: the faults in the fixed check order (R38). -/
  errors : List FaultCode
  deriving DecidableEq, Repr

/-- A field's value where its validity bit is set. -/
def whenValid {α : Type} (v : Bool) (a : α) : Option α := if v then some a else none

/-- The payload: `BBUF[4 .. 4+RES_LEN)` with PAY_V, else empty (10_state.md R26, R37). -/
def State.payload (s : State) : List Byte :=
  if payVField s.resStatus then (State.bytes s |>.drop 4).take s.resLen.toNat else []

/-- The Frame entity, when RES_STATUS.OUTCOME is OK; there is none otherwise (10_state.md R37). -/
def State.frameEntity (s : State) : Option FrameEntity :=
  if resOutcomeField s.resStatus = ResOutcome.ok.code then
    some
      { deviceId := whenValid (hdrVField s.resStatus) s.resDev
        command := whenValid (hdrVField s.resStatus) s.resCmd
        length := whenValid (hdrVField s.resStatus) s.resLen
        payload := State.payload s
        checksumGiven := whenValid (intVField s.resStatus) s.resCsumGiven
        checksumCalc := whenValid (intVField s.resStatus) s.resCsumCalc
        crcGiven := whenValid (intVField s.resStatus) s.resCrcGiven
        crcCalc := whenValid (intVField s.resStatus) s.resCrcCalc
        checksumValid := whenValid (intVField s.resStatus) (csumValidField s.resFlags)
        crcValid := whenValid (intVField s.resStatus) (crcValidField s.resFlags)
        errors := errorList s.resFaults }
  else none

end Sys2Proof.Machine
end

