-- ==== Sys2Proof/Safety.lean ====
section
/-!
DEFINITION. The terms in which claims speak about runs: the invariant of the block, the host's view of a state, and
texts that spell a byte sequence in hex.
-/
namespace Sys2Proof.Machine

/-! ### The invariant -/

/-- The buffers are canonical and lie inside their capacities, as do the valid lengths (10_state.md R23, R24). -/
abbrev State.buffersOk (s : State) : Prop :=
  Memory.wf s.tbuf = true ∧ Memory.below s.cfg.textMax s.tbuf = true ∧ s.tlen.toNat ≤ s.cfg.textMax
    ∧ Memory.wf s.bbuf = true ∧ Memory.below s.cfg.byteMax s.bbuf = true ∧ s.bcount.toNat ≤ s.cfg.byteMax

/-- CMDSTAT's reserved bits are 0, its OUTCOME is never 3, and TEXT_FULL is only TXT.PUSH's (10_state.md R25,
60_exceptions.md R140). -/
abbrev State.cmdstatOk (s : State) : Prop :=
  s.cmdstat &&& 0x00FC#16 = 0 ∧ cmdOutcomeField s.cmdstat ≠ 3
    ∧ (cmdOutcomeField s.cmdstat = CmdOutcome.textFull.code → lastOpField s.cmdstat = Opc.txtPush)

/-- The only values RES_STATUS takes (10_state.md R26; 40_hexcodec.md R89; 43_frame.md R116-R119; 60_exceptions.md
R143, R144). -/
def statusValues : List Half :=
  [0x0000, 0x1301, 0x1302, 0x4002, 0x4003, 0x4005, 0x4102, 0x4103, 0x410D, 0x4202, 0x4203, 0x421D,
   0x4302, 0x4303, 0x431D]

/-- The header registers are the header of the byte sequence with HDR_V, and 0 without (10_state.md R28). -/
abbrev State.headerOk (s : State) : Prop :=
  if hdrVField s.resStatus then
    8 ≤ (State.bytes s).length ∧ s.resDev = byteAt (State.bytes s) 1 ∧ s.resCmd = byteAt (State.bytes s) 2
      ∧ s.resLen = byteAt (State.bytes s) 3
  else s.resDev = 0 ∧ s.resCmd = 0 ∧ s.resLen = 0

/-- The integrity registers are the integrity of the byte sequence with INT_V, and 0 without (10_state.md
R29-R31). -/
abbrev State.integrityOk (s : State) : Prop :=
  if intVField s.resStatus then
    locatable (State.bytes s) = true
      ∧ s.resCsumGiven = (integrity (State.bytes s)).csumGiven ∧ s.resCsumCalc = (integrity (State.bytes s)).csumCalc
      ∧ s.resCrcGiven = (integrity (State.bytes s)).crcGiven ∧ s.resCrcCalc = (integrity (State.bytes s)).crcCalc
      ∧ s.resFlags = flagsWord (integrity (State.bytes s)).crcValid (integrity (State.bytes s)).csumValid
  else s.resCsumGiven = 0 ∧ s.resCsumCalc = 0 ∧ s.resCrcGiven = 0 ∧ s.resCrcCalc = 0 ∧ s.resFlags = 0

/-- The recorded faults by outcome: none before a decode and after a HEX.DECODE that succeeded; the hex faults
alone, with no bytes, after MalformedHex; the structural faults of the byte sequence otherwise, and at least one
of them after InvalidFrame (10_state.md R27). -/
abbrev State.faultsOk (s : State) : Prop :=
  if resOutcomeField s.resStatus = ResOutcome.malformedHex.code then
    s.bcount = 0 ∧ s.resFaults ∈ [0x0001#16, 0x0002#16, 0x0003#16]
  else if resOutcomeField s.resStatus = ResOutcome.invalidFrame.code then
    s.resFaults = faultBits (structCheck (State.bytes s)) ∧ s.resFaults ≠ 0
  else if hdrVField s.resStatus then s.resFaults = faultBits (structCheck (State.bytes s))
  else s.resFaults = 0

/-- The result registers always describe the byte sequence in BBUF (10_state.md R26-R31). -/
abbrev State.resultOk (s : State) : Prop :=
  s.resStatus ∈ statusValues ∧ (payVField s.resStatus = true → locatable (State.bytes s) = true)
    ∧ State.headerOk s ∧ State.integrityOk s ∧ State.faultsOk s

/-- The invariant of the block: a legal parameter, buffers within bounds, status words with reserved bits 0, and a
result that describes BBUF. -/
abbrev State.Inv (s : State) : Prop :=
  s.cfg.legal ∧ State.buffersOk s ∧ State.cmdstatOk s ∧ State.resultOk s

/-! ### The host's view -/

/-- Two states the host cannot tell apart: every register, the parameter and the waiting events agree, and so do
the text and the byte sequence; buffer elements at and beyond the valid lengths may differ (20_memory.md R42,
70_reset_and_hazards.md R161). -/
abbrev State.sameView (s t : State) : Prop :=
  { s with tbuf := [], bbuf := [] } = { t with tbuf := [], bbuf := [] }
    ∧ State.text s = State.text t ∧ State.bytes s = State.bytes t

/-! ### Hex texts -/

/-- The text `t` spells the bytes `b`: two hex digits per byte, high nibble first, any separators between the pairs
(43_frame.md R121). -/
inductive HexTextOf : List Byte → List Byte → Prop where
  /-- The empty text spells no bytes. -/
  | nil : HexTextOf [] []
  /-- A separator before the rest. -/
  | sep (c : Byte) (t b : List Byte) : isSep c = true → HexTextOf t b → HexTextOf (c :: t) b
  /-- A pair of hex digits before the rest. -/
  | pair (hi lo : Byte) (t b : List Byte) :
      isHexDigit hi = true → isHexDigit lo = true → HexTextOf t b → HexTextOf (hi :: lo :: t) (hexByte hi lo :: b)

end Sys2Proof.Machine
end

