-- ==== Sys2Proof/Certificates/Slice0/Obligations.lean ====
section
/-!
DEFINITION. The statements for the provers, and the terms they are stated in: the spec's own pseudocode and bit
tables, written out apart from the model's definitions (namespace Sys2Proof.Spec).
-/
namespace Sys2Proof.Spec

open Sys2Proof.Machine

/-! ### The spec's pseudocode and tables -/

/-- `legal(w)` of 30_encoding.md R63 in its first form: the opcode is in R62's table and the fields that are no
operand of its class are zero. -/
def legalByClass (w : Word) : Prop :=
  (w.extractLsb' 0 8 ∈ [0x00#8, 0x01#8, 0x10#8, 0x12#8, 0x13#8, 0x20#8, 0x40#8, 0x41#8, 0x42#8, 0x43#8]
      ∧ w.extractLsb' 8 24 = 0)
    ∨ (w.extractLsb' 0 8 ∈ [0x11#8, 0x21#8, 0x31#8] ∧ w.extractLsb' 16 16 = 0)
    ∨ (w.extractLsb' 0 8 = 0x30#8 ∧ w.extractLsb' 8 8 = 0)

/-- The `while` loop of `strip0x` (40_hexcodec.md R82), with a bound on its iterations. -/
def strip0xLoop (s : List Byte) : Nat → Nat → List Byte → List Byte
  | 0, _, out => out
  | fuel + 1, i, out =>
    if i < s.length then
      if i + 1 < s.length ∧ s.getD i 0 = 0x30 ∧ (s.getD (i + 1) 0 = 0x78 ∨ s.getD (i + 1) 0 = 0x58) then
        strip0xLoop s fuel (i + 2) out
      else strip0xLoop s fuel (i + 1) (out ++ [s.getD i 0])
    else out

/-- One iteration of `crcStep` (42_crc.md R100), on natural numbers. -/
def crcShiftNat (r : Nat) : Nat :=
  if r.testBit 15 then ((r <<< 1) ^^^ 0x1021) &&& 0xFFFF else (r <<< 1) &&& 0xFFFF

/-- `crcStep(c, b)` (42_crc.md R100), on natural numbers. -/
def crcStepNat (c b : Nat) : Nat := Nat.repeat crcShiftNat 8 ((c ^^^ (b <<< 8)) &&& 0xFFFF)

/-- `(zext_16(op) << 8) | low` (30_encoding.md R68, 60_exceptions.md R143, R144). -/
def opWord (op : Byte) (low : Half) : Half := (zext16 op <<< 8) ||| low

/-- The fault bits of a sanitized text (10_state.md R27, 40_hexcodec.md R84). -/
def hexFaultWord (t : List Byte) : Half :=
  (if t.length % 2 = 1 then 0x0001 else 0) ||| (if ∃ c ∈ t, isHexDigit c = false then 0x0002 else 0)

/-- The fault bits of a byte sequence (10_state.md R27, 43_frame.md R111). -/
def structFaultWord (b : List Byte) : Half :=
  (if b.length < 8 then 0x0004 else 0) ||| (if b.head? ≠ some 0x7E then 0x0008 else 0)
    ||| (if b.getLast? ≠ some 0x7E then 0x0010 else 0)
    ||| (if 8 ≤ b.length ∧ (b.getD 3 0).toNat + 8 ≠ b.length then 0x0020 else 0)

/-- The grounds of failure TOO_SHORT, BAD_START and BAD_END (43_frame.md R111, R114). -/
def shortOrUndelimited (b : List Byte) : Prop :=
  b.length < 8 ∨ b.head? ≠ some 0x7E ∨ b.getLast? ≠ some 0x7E

/-- Memory `m'` is `m` after `m[0..len(bs))` was written with `bs`: nothing else changed. -/
def holdsFromZero (m m' : Memory) (bs : List Byte) : Prop :=
  ∀ a, Memory.read m' a = if a < bs.length then bs.getD a 0 else Memory.read m a

/-- Results with every field 0 but RES_STATUS and RES_FAULTS (10_state.md R36, 60_exceptions.md R143, R144). -/
def bareResult (status faults : Half) (s : State) : State :=
  { s with
    resStatus := status, resFaults := faults, resDev := 0, resCmd := 0, resLen := 0
    resCsumGiven := 0, resCsumCalc := 0, resCrcGiven := 0, resCrcCalc := 0, resFlags := 0 }

/-- Results with the header fields, and no integrity fields (43_frame.md R115). -/
def headerResult (status : Half) (b : List Byte) (s : State) : State :=
  { bareResult status (structFaultWord b) s with
    resDev := b.getD 1 0, resCmd := b.getD 2 0, resLen := b.getD 3 0 }

/-- Results with header and integrity fields (43_frame.md R113, R115): region `b[1 .. 3+L]`, checksum at `4+L`,
crcHigh and crcLow at `5+L` and `6+L`, the flags from the two comparisons. -/
def fullResult (status : Half) (b : List Byte) (s : State) : State :=
  let len := (b.getD 3 0).toNat
  let region := (b.drop 1).take (3 + len)
  let crcGiven : Half := (zext16 (b.getD (5 + len) 0) <<< 8) ||| zext16 (b.getD (6 + len) 0)
  { headerResult status b s with
    resCsumGiven := b.getD (4 + len) 0
    resCsumCalc := checksum region
    resCrcGiven := crcGiven
    resCrcCalc := crc16 region 0xFFFF
    resFlags := (if crcGiven = crc16 region 0xFFFF then 2 else 0)
      ||| (if b.getD (4 + len) 0 = checksum region then 1 else 0) }

/-- The whole effect of a frame command (43_frame.md R115): MalformedHex, else the bytes in BBUF and InvalidFrame
or the command's result. Nothing but the result registers, BBUF, BCOUNT and CMDSTAT changes. -/
def frameCommand (i : Instr) (op : Byte) (fails : List Byte → Prop) (result : List Byte → State → State) : Prop :=
  ∀ s : State, ∃ t, exec i s = .next t ∧
    match hexDecode (State.text s) with
    | .malformed _ =>
      t = { bareResult (opWord op 2) (hexFaultWord (sanitize (State.text s))) s with
            bcount := 0, cmdstat := opWord op 0 }
    | .ok b =>
      holdsFromZero s.bbuf t.bbuf b ∧ State.bytes t = b ∧
      (fails b → t = { bareResult (opWord op 3) (structFaultWord b) s with
            bbuf := t.bbuf, bcount := BitVec.ofNat 16 b.length, cmdstat := opWord op 0 }) ∧
      (¬ fails b → t = { result b s with
            bbuf := t.bbuf, bcount := BitVec.ofNat 16 b.length, cmdstat := opWord op 0 })

/-- Command words executed one after the other, each in one step (00_scope.md R5, 30_encoding.md R68). -/
def issueAll : List Word → State → Host.Outcome State Fault Refusal
  | [], s => .next s
  | w :: ws, s =>
    match runWord w s with
    | .next t => issueAll ws t
    | .fault f => .fault f
    | .refused r => .refused r

/-- The commands that write the result registers and BBUF (10_state.md R20, 70_reset_and_hazards.md R163). -/
def isDecode : Instr → Bool
  | .hexDecode => true
  | .frmHeader => true
  | .frmPayload => true
  | .frmValidate => true
  | .frmFull => true
  | .nop => false
  | .srst => false
  | .txtClear => false
  | .txtPush _ => false
  | .txtSanitize => false
  | .csumClear => false
  | .csumByte _ => false
  | .crcInit _ => false
  | .crcByte _ => false

end Sys2Proof.Spec

open Sys2Proof Sys2Proof.Machine

/-! ### Encoding -/

/-- Words written out from 30_encoding.md R62, R69 and 95_test_vectors.md 2.5 (E2-E10) decode as they say. -/
def Obligations.SampleWordsDecode : Prop :=
  decode 0xFFFF0030#32 = .legal (.crcInit 0xFFFF) ∧ decode 0x00003711#32 = .legal (.txtPush 0x37)
    ∧ decode 0x00000043#32 = .legal .frmFull ∧ decode 0x0000FF21#32 = .legal (.csumByte 0xFF)
    ∧ decode 0x00000131#32 = .legal (.crcByte 0x01) ∧ decode 0x00000000#32 = .legal .nop
    ∧ decode 0x00000100#32 = .illegal 0x00 ∧ decode 0x00010000#32 = .illegal 0x00
    ∧ decode 0x00000044#32 = .illegal 0x44 ∧ decode 0x00AB0031#32 = .illegal 0x31
    ∧ decode 0x0000AB30#32 = .illegal 0x30

/-- Decode and encode agree for every command and every word, with every operand at every value (30_encoding.md
R60, R67). -/
def Obligations.DecodeAndEncodeAgree : Prop :=
  ∀ (i : Instr) (w : Word), decode w = .legal i ↔ w = encode i

/-- 30_encoding.md R63: the words the decoder takes are the legal ones, by the class form and by the match/mask
form, and no word satisfies two rows. -/
def Obligations.DecodeTakesExactlyTheLegalWords : Prop :=
  (∀ w : Word, ((∃ i, decode w = .legal i) ↔ Spec.legalByClass w) ∧ (legal w = true ↔ Spec.legalByClass w))
    ∧ ∀ (w : Word) (r q : OpcodeRow), r ∈ opcodeRows → q ∈ opcodeRows → r.accepts w = true → q.accepts w = true → r = q

/-- 60_exceptions.md R141, 30_encoding.md R64: a word that is not legal changes CMDSTAT and nothing else. -/
def Obligations.IllegalWordChangesOnlyCmdstat : Prop :=
  ∀ (w : Word) (s : State), ¬ Spec.legalByClass w →
    runWord w s = .next { s with cmdstat := Spec.opWord (w.extractLsb' 0 8) 1 }

/-! ### The step -/

/-- 30_encoding.md R68 over the host's oldest event (log entry 1): a step whose oldest event is a word that decodes
to `i` is `exec i` with that event taken. -/
def Obligations.StepRunsTheDecodedCommand : Prop :=
  ∀ (s : State) (w : Word) (rest : List HostEvent) (i : Instr),
    s.pending = .command w :: rest → decode w = .legal i → step s = exec i { s with pending := rest }

/-- What a step does with the other events (60_exceptions.md R141, R155; 70_reset_and_hazards.md R160; log entries 1, 2 and
4): an illegal word raises IllegalCommand, the reset input resets, whatever is issued meanwhile, and with nothing
waiting the block holds its state. -/
def Obligations.StepTakesTheOldestEvent : Prop :=
  ∀ (s : State) (rest : List HostEvent),
    (∀ w, s.pending = .command w :: rest → ¬ Spec.legalByClass w →
        step s = .next { s with pending := rest, cmdstat := Spec.opWord (w.extractLsb' 0 8) 1 })
      ∧ (∀ x y, s.pending = .reset x :: rest → step s = runEvent (.reset y) { s with pending := rest })
      ∧ (s.pending = [] → step s = .next s)

/-- Words waiting as the oldest events are executed in the order issued (00_scope.md R5, 20_memory.md R52; that they
wait in a list is the model's choice, log entry 1). -/
def Obligations.RunExecutesTheWordsInOrder : Prop :=
  ∀ (ws : List Word) (rest : List HostEvent) (s : State), s.pending = ws.map .command ++ rest →
    core.run ws.length s = Spec.issueAll ws { s with pending := rest }

/-- No step stops, from any state. For a command word this is the model's deduction from 60_exceptions.md R148, R149
and 30_encoding.md R67 (log entry 10); the spec has no step without a word, and that a step with nothing waiting answers
the same state is the model's choice (log entry 2), as the reset event is (log entry 4). -/
def Obligations.NoStepStops : Prop := ∀ s : State, ∃ t, step s = .next t

/-- CMDSTAT.LASTOP is the opcode byte of the word just taken and OUTCOME is OK, ILLEGAL or TEXT_FULL, the last for
TXT.PUSH alone (60_exceptions.md R140, 10_state.md R25). -/
def Obligations.CmdstatRecordsEveryWord : Prop :=
  ∀ (w : Word) (s t : State), runWord w s = .next t →
    ∃ o : Half, t.cmdstat = Spec.opWord (w.extractLsb' 0 8) o
      ∧ (o = 1 ↔ ¬ Spec.legalByClass w)
      ∧ (o = 2 ↔ (∃ c, w = encode (.txtPush c)) ∧ s.tlen.toNat = s.cfg.textMax) ∧ (o = 0 ∨ o = 1 ∨ o = 2)

/-! ### Reset and control -/

/-- 70_reset_and_hazards.md R160: the reset input, whatever word is issued meanwhile, leaves every register at its
reset value and every read address at 0 but CRC and PARAM_TEXT_MAX; SRST leaves the same but for CMDSTAT. Of the
buffers' contents, which R160 leaves unspecified, the statement says nothing. -/
def Obligations.ResetSetsEveryRegister : Prop :=
  ∀ (s : State) (x : Option Word), ∃ t,
    runEvent (.reset x) s = .next t
      ∧ t = { s with
          tbuf := t.tbuf, bbuf := t.bbuf
          crc := 0xFFFF, csum := 0, tlen := 0, bcount := 0, cmdstat := 0x0000, resStatus := 0, resFaults := 0
          resDev := 0, resCmd := 0, resLen := 0, resCsumGiven := 0, resCsumCalc := 0, resCrcGiven := 0
          resCrcCalc := 0, resFlags := 0 }
      ∧ (∀ a : Half, readPort t a
          = if a = 0x0001 then 0xFFFF else if a = 0x0005 then BitVec.ofNat 16 s.cfg.textMax else 0)
      ∧ ∃ u, exec .srst s = .next u ∧ u = { t with tbuf := u.tbuf, bbuf := u.bbuf, cmdstat := 0x0100 }

/-- The state after reset at any parameter: every register as 70_reset_and_hazards.md R160 gives it, every read
address at 0 but CRC and PARAM_TEXT_MAX (95_test_vectors.md 2.5). The empty event list and the default parameter
are the model's choice (log entries 1 and 3). -/
def Obligations.ResetStateReadsAsSpecified : Prop :=
  ∀ cfg : Config, ∀ a : Half, readPort (State.resetWith cfg) a
    = if a = 0x0001 then 0xFFFF else if a = 0x0005 then BitVec.ofNat 16 cfg.textMax else 0

/-- 44_control.md R130. -/
def Obligations.NopChangesOnlyCmdstat : Prop :=
  decode 0x00000000#32 = .legal .nop
    ∧ (∀ w : Word, w.extractLsb' 0 8 = 0 → w ≠ 0 → decode w = .illegal 0x00)
    ∧ ∀ s : State, exec .nop s = .next { s with cmdstat := 0x0000 }

/-- 44_control.md R131: the reset values, CMDSTAT 0x0100, buffer contents as they were; the reset input leaves the
same but for CMDSTAT, and every window address reads 0. That the reset input too keeps the buffers' contents, which
70_reset_and_hazards.md R160 leaves unspecified, is the model's choice (log entry 6). -/
def Obligations.SrstAppliesTheResetValues : Prop :=
  decode 0x00000001#32 = .legal .srst ∧
  ∀ s : State, ∃ t, exec .srst s = .next t
    ∧ t = { s with
        crc := 0xFFFF, csum := 0, tlen := 0, bcount := 0, cmdstat := 0x0100, resStatus := 0, resFaults := 0
        resDev := 0, resCmd := 0, resLen := 0, resCsumGiven := 0, resCsumCalc := 0, resCrcGiven := 0
        resCrcCalc := 0, resFlags := 0 }
    ∧ (∀ x, runEvent (.reset x) s = .next { t with cmdstat := 0x0000 })
    ∧ ∀ a : Half, 0x4000 ≤ a.toNat → readPort t a = 0

/-! ### Hex decoder -/

/-- 40_hexcodec.md R86. -/
def Obligations.TxtClearEmptiesTheText : Prop :=
  decode 0x00000010#32 = .legal .txtClear ∧
  ∀ s : State, exec .txtClear s = .next { s with tlen := 0, cmdstat := 0x1000 }
    ∧ ∀ i, i < 0x8000 → readPort { s with tlen := 0, cmdstat := 0x1000 } (BitVec.ofNat 16 (0x8000 + i)) = 0

/-- 40_hexcodec.md R87: TextFull leaves all but CMDSTAT; otherwise one element is written and TLEN counts it. -/
def Obligations.TxtPushAppendsOrIsFull : Prop :=
  (∀ c : Byte, decode (0x00000011#32 ||| (c.setWidth 32 <<< 8)) = .legal (.txtPush c)) ∧
  ∀ (c : Byte) (s : State),
    (s.tlen.toNat = s.cfg.textMax → exec (.txtPush c) s = .next { s with cmdstat := 0x1102 })
      ∧ (s.tlen.toNat ≠ s.cfg.textMax → ∃ m,
          exec (.txtPush c) s = .next { s with tbuf := m, tlen := s.tlen + 1, cmdstat := 0x1100 }
            ∧ ∀ a, Memory.read m a = if a = s.tlen.toNat then c else Memory.read s.tbuf a)

/-- In a block with a legal parameter and room left, TXT.PUSH makes the text one character longer (40_hexcodec.md
R87, 10_state.md R23). -/
def Obligations.TxtPushExtendsTheText : Prop :=
  ∀ (c : Byte) (s : State), s.cfg.legal → s.tlen.toNat < s.cfg.textMax →
    ∃ t, exec (.txtPush c) s = .next t ∧ State.text t = State.text s ++ [c]
      ∧ t.tlen.toNat = s.tlen.toNat + 1 ∧ t.tlen.toNat ≤ t.cfg.textMax

/-- 60_exceptions.md R142: with the buffer full, any number of further pushes changes CMDSTAT alone, until TXT.CLEAR,
a TXT.SANITIZE that shortens the text, SRST or the reset input makes room. -/
def Obligations.FullBufferDropsEveryPush : Prop :=
  ∀ (c : Byte) (cs : List Byte) (s : State), s.tlen.toNat = s.cfg.textMax →
    Spec.issueAll ((c :: cs).map (fun d => encode (.txtPush d))) s = .next { s with cmdstat := 0x1102 }
      ∧ ∀ t : State, s.cfg.legal →
        exec .txtClear s = .next t ∨ exec .srst s = .next t ∨ runEvent (.reset none) s = .next t
          ∨ (exec .txtSanitize s = .next t ∧ (sanitize (State.text s)).length < s.tlen.toNat) →
        ∃ u, exec (.txtPush c) t = .next u ∧ u.cmdstat = 0x1100 ∧ State.text u = State.text t ++ [c]

/-- 40_hexcodec.md R88: the text is its sanitized form, elements beyond it and all other state stay; sanitizing again
changes it only where a `0` followed by `x` or `X` is left; a text that decodes still decodes to the same bytes. -/
def Obligations.TxtSanitizeReplacesTheText : Prop :=
  decode 0x00000012#32 = .legal .txtSanitize ∧
  ∀ s : State, ∃ m,
    exec .txtSanitize s = .next
        { s with tbuf := m, tlen := BitVec.ofNat 16 (sanitize (State.text s)).length, cmdstat := 0x1200 }
      ∧ Spec.holdsFromZero s.tbuf m (sanitize (State.text s))
      ∧ State.text { s with tbuf := m, tlen := BitVec.ofNat 16 (sanitize (State.text s)).length }
          = sanitize (State.text s)
      ∧ (sanitize (State.text s)).length ≤ s.tlen.toNat
      ∧ (sanitize (sanitize (State.text s)) ≠ sanitize (State.text s) →
          ∃ k, k + 1 < (sanitize (State.text s)).length ∧ (sanitize (State.text s)).getD k 0 = 0x30
            ∧ ((sanitize (State.text s)).getD (k + 1) 0 = 0x78 ∨ (sanitize (State.text s)).getD (k + 1) 0 = 0x58))
      ∧ ∀ b, hexDecode (State.text s) = .ok b → hexDecode (sanitize (State.text s)) = .ok b

/-- 40_hexcodec.md R80, R81: the separators, the hex digits and their values. -/
def Obligations.CharacterClassesAreTheSpecs : Prop :=
  ∀ c : Byte,
    (isSep c = true ↔ c.toNat ∈ [0x09, 0x0A, 0x0B, 0x0C, 0x0D, 0x20, 0x7C])
      ∧ (isHexDigit c = true ↔ (0x30 ≤ c.toNat ∧ c.toNat ≤ 0x39) ∨ (0x41 ≤ c.toNat ∧ c.toNat ≤ 0x46)
          ∨ (0x61 ≤ c.toNat ∧ c.toNat ≤ 0x66))
      ∧ (0x30 ≤ c.toNat → c.toNat ≤ 0x39 → (hexVal c).toNat = c.toNat - 0x30)
      ∧ (0x41 ≤ c.toNat → c.toNat ≤ 0x46 → (hexVal c).toNat = c.toNat - 0x41 + 10)
      ∧ (0x61 ≤ c.toNat → c.toNat ≤ 0x66 → (hexVal c).toNat = c.toNat - 0x61 + 10)

/-- 40_hexcodec.md R82: the model's recursion is the spec's loop. -/
def Obligations.Strip0xIsTheSpecsLoop : Prop :=
  ∀ s : List Byte, strip0x s = Spec.strip0xLoop s (s.length + 1) 0 []

/-- 40_hexcodec.md R83: first the pairs go, by R82's loop, then the separators of R80; so the sanitized text holds no
separator, and a text with no `x`, `X` or separator is its own sanitized form. That sanitizing never lengthens the
spec marks as derived. -/
def Obligations.SanitizeRemovesSeparatorsAndPairs : Prop :=
  ∀ s : List Byte,
    sanitize s = (Spec.strip0xLoop s (s.length + 1) 0 []).filter
        (fun c => decide (c.toNat ∉ [0x09, 0x0A, 0x0B, 0x0C, 0x0D, 0x20, 0x7C]))
      ∧ (sanitize s).length ≤ s.length ∧ (∀ c ∈ sanitize s, isSep c = false)
      ∧ ((∀ c ∈ s, isSep c = false ∧ c ≠ 0x78 ∧ c ≠ 0x58) → sanitize s = s)

/-- 40_hexcodec.md R84, on the sanitized text `t`: bytes exactly when the length is even and every character is a
hex digit, byte `k` from `t[2k]` and `t[2k+1]`; otherwise the faults that hold, in order. -/
def Obligations.HexDecodeGivesBytesOrItsFaults : Prop :=
  ∀ s : List Byte,
    ((sanitize s).length % 2 = 0 ∧ (∀ c ∈ sanitize s, isHexDigit c = true) →
        ∃ b, hexDecode s = .ok b ∧ b.length = (sanitize s).length / 2
          ∧ ∀ k, k < b.length → (b.getD k 0).toNat
              = 16 * (hexVal ((sanitize s).getD (2 * k) 0)).toNat + (hexVal ((sanitize s).getD (2 * k + 1) 0)).toNat)
      ∧ (¬ ((sanitize s).length % 2 = 0 ∧ ∀ c ∈ sanitize s, isHexDigit c = true) →
        ∃ f, hexDecode s = .malformed f ∧ f ≠ [] ∧ (∀ c ∈ f, c = .hexOdd ∨ c = .hexDigit)
          ∧ (FaultCode.hexOdd ∈ f ↔ (sanitize s).length % 2 = 1)
          ∧ (FaultCode.hexDigit ∈ f ↔ ∃ c ∈ sanitize s, isHexDigit c = false)
          ∧ faultBits f = Spec.hexFaultWord (sanitize s))

/-- The law 40_hexcodec.md R85 derives: "whenever `hexDecode(s) = Ok(b)`, also `hexDecode(sanitize(s)) = Ok(b)`";
and its counterexample to the converse, `00xx`. -/
def Obligations.SanitizedTextDecodesAlike : Prop :=
  (∀ (s b : List Byte), hexDecode s = .ok b → hexDecode (sanitize s) = .ok b)
    ∧ hexDecode [0x30, 0x30, 0x78, 0x78] = .malformed [.hexDigit]
    ∧ hexDecode (sanitize [0x30, 0x30, 0x78, 0x78]) = .ok []

/-- Any spelling of a byte sequence in hex digits, with separators between the pairs, decodes to it (40_hexcodec.md
R84, R46 of 20_memory.md). -/
def Obligations.HexSpellingDecodesToItsBytes : Prop :=
  ∀ t b : List Byte, HexTextOf t b → hexDecode t = .ok b

/-- 40_hexcodec.md R89: the whole effect of HEX.DECODE. -/
def Obligations.HexDecodeCommandFillsBbuf : Prop :=
  decode 0x00000013#32 = .legal .hexDecode ∧
  ∀ s : State, ∃ t, exec .hexDecode s = .next t ∧
    match hexDecode (State.text s) with
    | .malformed _ =>
      t = { Spec.bareResult 0x1302 (Spec.hexFaultWord (sanitize (State.text s))) s with
            bcount := 0, cmdstat := 0x1300 }
    | .ok b =>
      Spec.holdsFromZero s.bbuf t.bbuf b ∧ State.bytes t = b ∧
      t = { Spec.bareResult 0x1301 0 s with
            bbuf := t.bbuf, bcount := BitVec.ofNat 16 b.length, cmdstat := 0x1300 }
        ∧ (s.tlen.toNat ≤ s.cfg.textMax → b.length ≤ s.cfg.byteMax)

/-- No decode produces more bytes than BYTE_MAX: 00_scope.md R6 marks this as derived. -/
def Obligations.DecodedBytesFitBbuf : Prop :=
  ∀ (s : State) (b : List Byte), s.tlen.toNat ≤ s.cfg.textMax → hexDecode (State.text s) = .ok b →
    b.length ≤ s.cfg.byteMax

/-! ### Checksum -/

/-- 41_checksum.md R97. -/
def Obligations.CsumClearZeroesCsum : Prop :=
  decode 0x00000020#32 = .legal .csumClear ∧
  ∀ s : State, exec .csumClear s = .next { s with csum := 0x00, cmdstat := 0x2000 }

/-- 41_checksum.md R95, R98: the sum of two unsigned bytes mod 256, and no other change than CMDSTAT's. -/
def Obligations.CsumByteAddsModulo256 : Prop :=
  (∀ b : Byte, decode (0x00000021#32 ||| (b.setWidth 32 <<< 8)) = .legal (.csumByte b)) ∧
  ∀ (b : Byte) (s : State), exec (.csumByte b) s
    = .next { s with csum := BitVec.ofNat 8 ((s.csum.toNat + b.toNat) % 256), cmdstat := 0x2100 }

/-- The checksum is the sum of all byte values mod 256, so it is independent of order, adds over concatenation and
ignores zero bytes (41_checksum.md R96, R99; the spec marks the sum form and these laws as derived). -/
def Obligations.ChecksumIsTheSumModulo256 : Prop :=
  ∀ as bs : List Byte,
    (checksum as).toNat = (as.map BitVec.toNat).sum % 256
      ∧ (as.Perm bs → checksum as = checksum bs)
      ∧ (checksum (as ++ bs)).toNat = ((checksum as).toNat + (checksum bs).toNat) % 256
      ∧ checksum (as ++ [0x00]) = checksum as

/-- CSUM.CLEAR and one CSUM.BYTE per byte leave the checksum of the bytes in CSUM, from any state (the corner case of
41_checksum.md R98, which the spec marks as derived; R70). -/
def Obligations.CsumStreamComputesTheChecksum : Prop :=
  ∀ (s : State) (bs : List Byte),
    Spec.issueAll (0x00000020#32 :: AsmStmt.words (.csumBytes bs)) s = .next
      { s with csum := checksum bs, cmdstat := if bs = [] then 0x2000 else 0x2100 }

/-! ### CRC -/

/-- 42_crc.md R102. -/
def Obligations.CrcInitLoadsCrc : Prop :=
  (∀ v : Half, decode (0x00000030#32 ||| (v.setWidth 32 <<< 16)) = .legal (.crcInit v)) ∧
  ∀ (v : Half) (s : State), exec (.crcInit v) s = .next { s with crc := v, cmdstat := 0x3000 }

/-- 42_crc.md R103, with `crcStep` on natural numbers (R100). -/
def Obligations.CrcByteStepsCrc : Prop :=
  (∀ b : Byte, decode (0x00000031#32 ||| (b.setWidth 32 <<< 8)) = .legal (.crcByte b)) ∧
  ∀ (b : Byte) (s : State), exec (.crcByte b) s
    = .next { s with crc := BitVec.ofNat 16 (Spec.crcStepNat s.crc.toNat b.toNat), cmdstat := 0x3100 }

/-- 42_crc.md R100: the model's step is the spec's pseudocode on natural numbers, masks included. -/
def Obligations.CrcStepIsTheSpecsLoop : Prop :=
  ∀ (c : Half) (b : Byte), (crcStep c b).toNat = Spec.crcStepNat c.toNat b.toNat

/-- The laws of 42_crc.md R104, which the spec marks as derived: linearity over GF(2), the zero fixed point, the byte
folded into the high half. -/
def Obligations.CrcStepIsLinear : Prop :=
  (∀ c d : Half, crcStep (c ^^^ d) 0 = crcStep c 0 ^^^ crcStep d 0) ∧ crcStep 0 0 = 0
    ∧ ∀ (c : Half) (b : Byte), crcStep c b = crcStep (c ^^^ (zext16 b <<< 8)) 0

/-- A CRC of a message followed by its own CRC, high byte first, is 0, whatever the initial value (a consequence of
42_crc.md R100, R101 and 20_memory.md R45 that no rule states). -/
def Obligations.CrcOfMessageAndItsCrcIsZero : Prop :=
  ∀ (m : List Byte) (init : Half),
    crc16 (m ++ [(crc16 m init).extractLsb' 8 8, (crc16 m init).extractLsb' 0 8]) init = 0

/-- CRC.START and one CRC.BYTE per byte leave the CRC of the bytes in CRC, from any state (42_crc.md R103's corner
case, which the spec marks as derived; R70). -/
def Obligations.CrcStreamComputesTheCrc : Prop :=
  ∀ (s : State) (bs : List Byte),
    Spec.issueAll (AsmStmt.words .crcStart ++ AsmStmt.words (.crcBytes bs)) s = .next
      { s with crc := crc16 bs 0xFFFF, cmdstat := if bs = [] then 0x3000 else 0x3100 }

/-- The save and restore of 70_reset_and_hazards.md R165, which the spec marks as derived: a stream interrupted by any
commands and resumed with CRC.INIT of the saved value ends as if it had not been. -/
def Obligations.SavedCrcStreamResumesExactly : Prop :=
  ∀ (as bs : List Byte) (init : Half) (s u : State), s.crc = crc16 as init →
    ∃ t, Spec.issueAll (encode (.crcInit (readPort s 0x0001)) :: AsmStmt.words (.crcBytes bs)) u = .next t
      ∧ readPort t 0x0001 = crc16 (as ++ bs) init

/-! ### Frame validator -/

/-- 43_frame.md R111: which faults `structCheck` records, in the fixed order, each on its own. -/
def Obligations.StructCheckRecordsEveryFault : Prop :=
  ∀ b : List Byte,
    (FaultCode.tooShort ∈ structCheck b ↔ b.length < 8)
      ∧ (FaultCode.badStart ∈ structCheck b ↔ b.head? ≠ some 0x7E)
      ∧ (FaultCode.badEnd ∈ structCheck b ↔ b.getLast? ≠ some 0x7E)
      ∧ (FaultCode.sizeMismatch ∈ structCheck b ↔ 8 ≤ b.length ∧ (b.getD 3 0).toNat + 8 ≠ b.length)
      ∧ (structCheck b).Sublist [.tooShort, .badStart, .badEnd, .sizeMismatch]

/-- 10_state.md R38: RES_FAULTS read in ascending bit order is the list of faults in check order. -/
def Obligations.ErrorListIsTheCheckOrder : Prop :=
  (∀ b : List Byte, errorList (faultBits (structCheck b)) = structCheck b)
    ∧ (∀ (s : List Byte) (f : List FaultCode), hexDecode s = .malformed f → errorList (faultBits f) = f)
    ∧ ∀ w : Half, w &&& 0xFFC0#16 = 0 → (errorList w = [] ↔ w = 0) ∧ faultBits (errorList w) = w

/-- 43_frame.md R113, on a locatable sequence split into its fields; 20_memory.md R45, the CRC field high byte
first. -/
def Obligations.IntegrityReadsTheLayoutOffsets : Prop :=
  ∀ (start dev cmd len cs hi lo : Byte) (p rest : List Byte), p.length = len.toNat → rest ≠ [] →
    locatable (start :: dev :: cmd :: len :: (p ++ cs :: hi :: lo :: rest)) = true
      ∧ integrity (start :: dev :: cmd :: len :: (p ++ cs :: hi :: lo :: rest))
        = { csumGiven := cs
            csumCalc := checksum (dev :: cmd :: len :: p)
            crcGiven := (zext16 hi <<< 8) ||| zext16 lo
            crcCalc := crc16 (dev :: cmd :: len :: p) 0xFFFF }
      ∧ ((integrity (start :: dev :: cmd :: len :: (p ++ cs :: hi :: lo :: rest))).csumValid = true
          ↔ cs = checksum (dev :: cmd :: len :: p))
      ∧ ((integrity (start :: dev :: cmd :: len :: (p ++ cs :: hi :: lo :: rest))).crcValid = true
          ↔ ((zext16 hi <<< 8) ||| zext16 lo) = crc16 (dev :: cmd :: len :: p) 0xFFFF)

/-- 43_frame.md R116: the whole effect of FRM.HEADER. -/
def Obligations.FrmHeaderReportsTheHeader : Prop :=
  decode 0x00000040#32 = .legal .frmHeader ∧
  Spec.frameCommand .frmHeader 0x40 Spec.shortOrUndelimited (Spec.headerResult 0x4005)

/-- 43_frame.md R117: the whole effect of FRM.PAYLOAD. -/
def Obligations.FrmPayloadReportsThePayload : Prop :=
  decode 0x00000041#32 = .legal .frmPayload ∧
  Spec.frameCommand .frmPayload 0x41
    (fun b => Spec.shortOrUndelimited b ∨ b.length < (b.getD 3 0).toNat + 8) (Spec.headerResult 0x410D)

/-- 43_frame.md R118: the whole effect of FRM.VALIDATE. -/
def Obligations.FrmValidateChecksIntegrity : Prop :=
  decode 0x00000042#32 = .legal .frmValidate ∧
  Spec.frameCommand .frmValidate 0x42
    (fun b => Spec.shortOrUndelimited b ∨ (b.getD 3 0).toNat + 8 ≠ b.length) (Spec.fullResult 0x421D)

/-- 43_frame.md R119: the whole effect of FRM.FULL. -/
def Obligations.FrmFullPopulatesWhatIsLocatable : Prop :=
  decode 0x00000043#32 = .legal .frmFull ∧
  Spec.frameCommand .frmFull 0x43
    (fun b => b.length < 8 ∨ b.length < (b.getD 3 0).toNat + 8) (Spec.fullResult 0x431D)

/-- 60_exceptions.md R145: on a structurally sound frame FRM.VALIDATE and FRM.FULL succeed whatever the integrity
fields hold, and only RES_FLAGS tells a mismatch. -/
def Obligations.IntegrityMismatchIsNoFailure : Prop :=
  ∀ (i : Instr) (s : State) (b : List Byte), i = .frmValidate ∨ i = .frmFull →
    hexDecode (State.text s) = .ok b → Spec.structFaultWord b = 0 →
    ∃ t, exec i s = .next t ∧ resOutcomeField t.resStatus = 1 ∧ cmdOutcomeField t.cmdstat = 0 ∧ t.resFaults = 0
      ∧ (t.resFlags.getLsbD 0 = true ↔ t.resCsumGiven = t.resCsumCalc)
      ∧ (t.resFlags.getLsbD 1 = true ↔ t.resCrcGiven = t.resCrcCalc)

/-- 43_frame.md R122, which the spec marks as derived: a sequence of fewer than 8 bytes fails every frame command and
no integrity value is computed. -/
def Obligations.ShortSequenceNeverReachesIntegrity : Prop :=
  ∀ (i : Instr) (s : State) (b : List Byte), i ∈ [Instr.frmHeader, .frmPayload, .frmValidate, .frmFull] →
    hexDecode (State.text s) = .ok b → b.length < 8 →
    ∃ t, exec i s = .next t ∧ resOutcomeField t.resStatus = 3 ∧ t.resFaults.getLsbD 2 = true
      ∧ intVField t.resStatus = false ∧ t.resCsumCalc = 0 ∧ t.resCrcCalc = 0

/-- 60_exceptions.md R143, R144: a decode or frame command that does not end in OK returns no entity: every result
field and validity bit is 0, at least one fault is recorded, and the command still counts as executed. -/
def Obligations.FailedDecodeReturnsNoEntity : Prop :=
  ∀ (i : Instr) (s t : State), Spec.isDecode i = true → exec i s = .next t → resOutcomeField t.resStatus ≠ 1 →
    State.frameEntity t = none ∧ t.resFaults ≠ 0 ∧ State.payload t = []
      ∧ (resOutcomeField t.resStatus = 2 ∨ resOutcomeField t.resStatus = 3)
      ∧ t = { Spec.bareResult t.resStatus t.resFaults s with
              bbuf := t.bbuf, bcount := t.bcount, cmdstat := Spec.opWord (Word.opc (encode i)) 0 }
      ∧ hdrVField t.resStatus = false ∧ payVField t.resStatus = false ∧ intVField t.resStatus = false

/-- The round trip of 43_frame.md R121, which the spec marks as derived: a frame built from any header and payload with
its own checksum and CRC, spelled in hex with any separators, validates and decodes to the values it was built
from. -/
def Obligations.BuiltFrameRoundTrips : Prop :=
  ∀ (dev cmd : Byte) (p : List Byte) (i : Instr) (s : State), p.length ≤ 255 →
    i = .frmValidate ∨ i = .frmFull → HexTextOf (State.text s) (buildFrame dev cmd p) →
    ∃ t, exec i s = .next t ∧ t.resFlags = 0x3 ∧ t.resFaults = 0x0000
      ∧ State.frameEntity t = some
        { deviceId := some dev, command := some cmd, length := some (BitVec.ofNat 8 p.length), payload := p
          checksumGiven := some (checksum (dev :: cmd :: BitVec.ofNat 8 p.length :: p))
          checksumCalc := some (checksum (dev :: cmd :: BitVec.ofNat 8 p.length :: p))
          crcGiven := some (crc16 (dev :: cmd :: BitVec.ofNat 8 p.length :: p) 0xFFFF)
          crcCalc := some (crc16 (dev :: cmd :: BitVec.ofNat 8 p.length :: p) 0xFFFF)
          checksumValid := some true, crcValid := some true, errors := [] }

/-- A single altered byte of the integrity region is always caught by FRM.VALIDATE's checksum (a consequence of
41_checksum.md R96 and 43_frame.md R113 that no rule states). -/
def Obligations.OneAlteredByteFailsTheChecksum : Prop :=
  ∀ (as bs : List Byte) (x y : Byte), x ≠ y → checksum (as ++ x :: bs) ≠ checksum (as ++ y :: bs)

/-! ### What a command may write -/

/-- The last two columns of 10_state.md R20's table ("written by"): each register is written only by the commands
named for it, CMDSTAT by all; the parameter and the waiting events by none (the last two are the model's own, log
entries 1 and 3). -/
def Obligations.OnlyTheNamedCommandsWriteARegister : Prop :=
  ∀ (i : Instr) (s t : State), exec i s = .next t →
    (t.crc = s.crc ∨ i = .srst ∨ (∃ v, i = .crcInit v) ∨ ∃ b, i = .crcByte b)
      ∧ (t.csum = s.csum ∨ i = .srst ∨ i = .csumClear ∨ ∃ b, i = .csumByte b)
      ∧ (t.tlen = s.tlen ∨ i = .srst ∨ i = .txtClear ∨ i = .txtSanitize ∨ ∃ c, i = .txtPush c)
      ∧ (t.tbuf = s.tbuf ∨ i = .txtSanitize ∨ ∃ c, i = .txtPush c)
      ∧ (t.bbuf = s.bbuf ∨ Spec.isDecode i = true)
      ∧ (Spec.isDecode i = true ∨ i = .srst ∨
          t = { s with crc := t.crc, csum := t.csum, tlen := t.tlen, tbuf := t.tbuf, cmdstat := t.cmdstat })
      ∧ t.cfg = s.cfg ∧ t.pending = s.pending

/-- 10_state.md R36, R163 of 70_reset_and_hazards.md: the result of a decode or frame command, its bytes included,
depends on the text alone, never on an earlier result, an accumulator or an earlier byte sequence. -/
def Obligations.DecodeResultDependsOnlyOnTheText : Prop :=
  ∀ (i : Instr) (s u t v : State), Spec.isDecode i = true → State.text s = State.text u →
    exec i s = .next t → exec i u = .next v →
    State.bytes t = State.bytes v ∧ State.frameEntity t = State.frameEntity v
      ∧ ∀ a : Half, 0x0010 ≤ a.toNat → a.toNat < 0x8000 → readPort t a = readPort v a

/-! ### The read port -/

/-- 20_memory.md R41-R43: the named registers, the reserved addresses, and the two windows through the text and the
byte sequence. -/
def Obligations.ReadPortFollowsTheMap : Prop :=
  ∀ s : State,
    [readPort s 0x0000, readPort s 0x0001, readPort s 0x0002, readPort s 0x0003, readPort s 0x0004, readPort s 0x0005]
        = [s.cmdstat, s.crc, zext16 s.csum, s.tlen, s.bcount, BitVec.ofNat 16 s.cfg.textMax]
      ∧ [readPort s 0x0010, readPort s 0x0011, readPort s 0x0012, readPort s 0x0013, readPort s 0x0014,
          readPort s 0x0015, readPort s 0x0016, readPort s 0x0017, readPort s 0x0018, readPort s 0x0019]
        = [s.resStatus, s.resFaults, zext16 s.resDev, zext16 s.resCmd, zext16 s.resLen, zext16 s.resCsumGiven,
          zext16 s.resCsumCalc, s.resCrcGiven, s.resCrcCalc, s.resFlags]
      ∧ (∀ a : Half, (0x0006 ≤ a.toNat ∧ a.toNat ≤ 0x000F) ∨ (0x001A ≤ a.toNat ∧ a.toNat ≤ 0x3FFF) → readPort s a = 0)
      ∧ (∀ i, i < 0x4000 → readPort s (BitVec.ofNat 16 (0x4000 + i))
          = if i < s.bcount.toNat then zext16 (Memory.read s.bbuf i) else 0)
      ∧ ∀ i, i < 0x8000 → readPort s (BitVec.ofNat 16 (0x8000 + i))
          = if i < s.tlen.toNat then zext16 (Memory.read s.tbuf i) else 0

/-- 20_memory.md R42, 70_reset_and_hazards.md R161 (which the spec marks as derived): buffer contents at and beyond
the valid lengths are never observable. Two states that differ in nothing else read alike at every address, and
step to two states that again differ in nothing else. -/
def Obligations.BufferTailsAreNeverObserved : Prop :=
  ∀ s t : State, State.sameView s t →
    (∀ a : Half, readPort s a = readPort t a)
      ∧ ∀ s', step s = .next s' → ∃ t', step t = .next t' ∧ State.sameView s' t'

/-! ### The invariant -/

/-- The state after reset meets the invariant, at every legal parameter. -/
def Obligations.ResetMeetsTheInvariant : Prop :=
  (∀ cfg : Config, cfg.legal → State.Inv (State.resetWith cfg)) ∧ State.Inv State.reset

/-- Every step keeps the invariant: buffers within their capacities, reserved status bits 0, RES_STATUS at one of its
fifteen values, and result registers that describe BBUF (10_state.md R23-R31). -/
def Obligations.StepKeepsTheInvariant : Prop :=
  ∀ s t : State, State.Inv s → step s = .next t → State.Inv t

/-- Whenever the invariant holds, the Frame entity is what 43_frame.md R111-R113 say of the bytes in BBUF: after a
FRM.VALIDATE or FRM.FULL that succeeded, integrity and errors are those of the byte sequence. -/
def Obligations.EntityDescribesTheByteSequence : Prop :=
  ∀ (s : State) (e : FrameEntity), State.Inv s → State.frameEntity s = some e → intVField s.resStatus = true →
    e.deviceId = some (byteAt (State.bytes s) 1) ∧ e.command = some (byteAt (State.bytes s) 2)
      ∧ e.length = some (byteAt (State.bytes s) 3)
      ∧ e.payload = ((State.bytes s).drop 4).take (frameLen (State.bytes s))
      ∧ e.payload.length = frameLen (State.bytes s)
      ∧ e.checksumGiven = some (byteAt (State.bytes s) (4 + frameLen (State.bytes s)))
      ∧ e.checksumCalc = some (checksum (region (State.bytes s)))
      ∧ e.crcGiven = some ((zext16 (byteAt (State.bytes s) (5 + frameLen (State.bytes s))) <<< 8)
          ||| zext16 (byteAt (State.bytes s) (6 + frameLen (State.bytes s))))
      ∧ e.crcCalc = some (crc16 (region (State.bytes s)) 0xFFFF)
      ∧ e.checksumValid = some (decide (e.checksumGiven = e.checksumCalc))
      ∧ e.crcValid = some (decide (e.crcGiven = e.crcCalc)) ∧ e.errors = structCheck (State.bytes s)

/-! ### Assembly -/

/-- Every statement expands to legal words (30_encoding.md R70), each decoding to the command it was written for
(R69). -/
def Obligations.AssembledWordsAreLegal : Prop :=
  ∀ a : AsmStmt, (∀ w ∈ a.words, Spec.legalByClass w) ∧ a.words.map decode = a.expand.map Decoded.legal

/-- The three operand readers (30_encoding.md R69, with the model's choices of log entry 9): `stmtByte` and `stmtHalf`
take a number in range and refuse one above it, `stmtHalf` refuses a character, a missing operand is refused by those
two and an extra one by all three. Which reader a mnemonic has, and the other forms of an operand, the statement does
not say. -/
def Obligations.AssemblerRefusesBadOperands : Prop :=
  ∀ (f : Byte → Instr) (g : Half → Instr) (i : Instr) (n : Nat) (o o' : AsmOperand) (os : List AsmOperand),
    (stmtByte f [.num n] = if n ≤ 255 then .ok (.instr (f (BitVec.ofNat 8 n))) else .error .operandRange)
      ∧ (stmtHalf g [.num n] = if n ≤ 65535 then .ok (.instr (g (BitVec.ofNat 16 n))) else .error .operandRange)
      ∧ stmtHalf g [.chr n] = .error .badOperand
      ∧ stmtByte f [] = .error .missingOperand ∧ stmtHalf g [] = .error .missingOperand
      ∧ stmtNone i (o :: os) = .error .extraOperand ∧ stmtByte f (o :: o' :: os) = .error .extraOperand
      ∧ stmtHalf g (o :: o' :: os) = .error .extraOperand

/-- TXT.LOAD (30_encoding.md R70) of a text that fits leaves exactly that text, and changes nothing but the text
buffer and CMDSTAT. -/
def Obligations.TxtLoadFillsTheText : Prop :=
  ∀ (s : State) (cs : List Byte), s.cfg.legal → cs.length ≤ s.cfg.textMax →
    ∃ t, Spec.issueAll (AsmStmt.words (.txtLoad cs)) s = .next t ∧ State.text t = cs
      ∧ t = { s with
              tbuf := t.tbuf, tlen := BitVec.ofNat 16 cs.length
              cmdstat := if cs = [] then 0x1000 else 0x1100 }

/-! ### Several instances -/

/-- 60_exceptions.md R153: a step of one instance is its own step and leaves every other instance's state (the
platform as a list of states is the model's choice, log entry 11). -/
def Obligations.InstancesShareNothing : Prop :=
  ∀ (p q : Platform) (k : Nat), p.stepBlock k = .next q →
    q.blocks.length = p.blocks.length ∧ (∀ j, j ≠ k → q.blocks[j]? = p.blocks[j]?)
      ∧ ∀ s, p.blocks[k]? = some s → ∃ t, step s = .next t ∧ q.blocks[k]? = some t
end

