-- ==== Sys2Proof/Laws/Decode.lean ====
section
/-!
SUPPORT. The fields of a command word (30_encoding.md R60): laid side by side and read back.
-/
namespace Sys2Proof

@[simp] theorem opc_ofFields (v : Half) (b op : Byte) : Word.opc (Word.ofFields v b op) = op := by
  apply BitVec.eq_of_getLsbD_eq
  intro i hi
  simp only [Word.opc, Word.ofFields, BitVec.getLsbD_extractLsb', BitVec.getLsbD_append]
  simp [hi]

@[simp] theorem b8_ofFields (v : Half) (b op : Byte) : Word.b8 (Word.ofFields v b op) = b := by
  apply BitVec.eq_of_getLsbD_eq
  intro i hi
  simp only [Word.b8, Word.ofFields, BitVec.getLsbD_extractLsb', BitVec.getLsbD_append]
  simp [hi]

@[simp] theorem imm16_ofFields (v : Half) (b op : Byte) : Word.imm16 (Word.ofFields v b op) = v := by
  apply BitVec.eq_of_getLsbD_eq
  intro i hi
  simp only [Word.imm16, Word.ofFields, BitVec.getLsbD_extractLsb', BitVec.getLsbD_append]
  simp [hi, show ¬ (16 + i < 8) by omega, show ¬ (16 + i - 8 < 8) by omega, show 16 + i - 8 - 8 = i by omega]

/-- A word is its three fields. -/
theorem ofFields_fields (w : Word) : Word.ofFields (Word.imm16 w) (Word.b8 w) (Word.opc w) = w := by
  apply BitVec.eq_of_getLsbD_eq
  intro i hi
  simp only [Word.opc, Word.b8, Word.imm16, Word.ofFields, BitVec.getLsbD_extractLsb', BitVec.getLsbD_append]
  by_cases h1 : i < 8
  · simp [h1]
  · by_cases h2 : i - 8 < 8
    · simp [h1, h2, show 8 + (i - 8) = i by omega]
    · simp [h1, h2, show i - 8 - 8 < 16 by omega, show 16 + (i - 8 - 8) = i by omega]

/-- Words are equal when their fields are. -/
theorem word_ext {w x : Word} (ho : Word.opc w = Word.opc x) (hb : Word.b8 w = Word.b8 x)
    (hv : Word.imm16 w = Word.imm16 x) : w = x := by
  rw [← ofFields_fields w, ← ofFields_fields x, ho, hb, hv]

/-! ### The opcodes as numbers -/

@[simp] theorem opcode_nop : Opc.nop = 0x00#8 := rfl
@[simp] theorem opcode_srst : Opc.srst = 0x01#8 := rfl
@[simp] theorem opcode_txtClear : Opc.txtClear = 0x10#8 := rfl
@[simp] theorem opcode_txtPush : Opc.txtPush = 0x11#8 := rfl
@[simp] theorem opcode_txtSanitize : Opc.txtSanitize = 0x12#8 := rfl
@[simp] theorem opcode_hexDecode : Opc.hexDecode = 0x13#8 := rfl
@[simp] theorem opcode_csumClear : Opc.csumClear = 0x20#8 := rfl
@[simp] theorem opcode_csumByte : Opc.csumByte = 0x21#8 := rfl
@[simp] theorem opcode_crcInit : Opc.crcInit = 0x30#8 := rfl
@[simp] theorem opcode_crcByte : Opc.crcByte = 0x31#8 := rfl
@[simp] theorem opcode_frmHeader : Opc.frmHeader = 0x40#8 := rfl
@[simp] theorem opcode_frmPayload : Opc.frmPayload = 0x41#8 := rfl
@[simp] theorem opcode_frmValidate : Opc.frmValidate = 0x42#8 := rfl
@[simp] theorem opcode_frmFull : Opc.frmFull = 0x43#8 := rfl

/-! ### The three classes -/

theorem decodeNone_legal (w : Word) (i j : Instr) :
    decodeNone w i = .legal j ↔ (Word.b8 w = 0 ∧ Word.imm16 w = 0) ∧ i = j := by
  unfold decodeNone
  split <;> simp_all

theorem decodeB8_legal (w : Word) (i j : Instr) : decodeB8 w i = .legal j ↔ Word.imm16 w = 0 ∧ i = j := by
  unfold decodeB8
  split <;> simp_all

theorem decodeImm16_legal (w : Word) (i j : Instr) : decodeImm16 w i = .legal j ↔ Word.b8 w = 0 ∧ i = j := by
  unfold decodeImm16
  split <;> simp_all

/-! ### The opcode map -/

/-- No two rows of the opcode map share an opcode (30_encoding.md R62). -/
theorem opcodeRows_nodup : (opcodeRows.map OpcodeRow.opc).Nodup := by decide

/-! ### What decoding can answer -/

/-- The four ways a word decodes (30_encoding.md R67): by one of the three classes, to the command whose word has its
opcode, or to an illegal word. -/
theorem decode_cases (w : Word) :
    (∃ i, decode w = decodeNone w i ∧ encode i = Word.ofFields 0 0 (Word.opc w))
      ∨ (∃ f : Byte → Instr, decode w = decodeB8 w (f (Word.b8 w)) ∧ ∀ b, encode (f b) = Word.ofFields 0 b (Word.opc w))
      ∨ (∃ f : Half → Instr,
          decode w = decodeImm16 w (f (Word.imm16 w)) ∧ ∀ v, encode (f v) = Word.ofFields v 0 (Word.opc w))
      ∨ decode w = .illegal (Word.opc w) := by
  unfold decode
  by_cases h : Word.opc w = Opc.nop
  · rw [if_pos h]; exact .inl ⟨.nop, rfl, by rw [h]; rfl⟩
  rw [if_neg h]; clear h
  by_cases h : Word.opc w = Opc.srst
  · rw [if_pos h]; exact .inl ⟨.srst, rfl, by rw [h]; rfl⟩
  rw [if_neg h]; clear h
  by_cases h : Word.opc w = Opc.txtClear
  · rw [if_pos h]; exact .inl ⟨.txtClear, rfl, by rw [h]; rfl⟩
  rw [if_neg h]; clear h
  by_cases h : Word.opc w = Opc.txtPush
  · rw [if_pos h]; exact .inr (.inl ⟨.txtPush, rfl, fun b => by rw [h]; rfl⟩)
  rw [if_neg h]; clear h
  by_cases h : Word.opc w = Opc.txtSanitize
  · rw [if_pos h]; exact .inl ⟨.txtSanitize, rfl, by rw [h]; rfl⟩
  rw [if_neg h]; clear h
  by_cases h : Word.opc w = Opc.hexDecode
  · rw [if_pos h]; exact .inl ⟨.hexDecode, rfl, by rw [h]; rfl⟩
  rw [if_neg h]; clear h
  by_cases h : Word.opc w = Opc.csumClear
  · rw [if_pos h]; exact .inl ⟨.csumClear, rfl, by rw [h]; rfl⟩
  rw [if_neg h]; clear h
  by_cases h : Word.opc w = Opc.csumByte
  · rw [if_pos h]; exact .inr (.inl ⟨.csumByte, rfl, fun b => by rw [h]; rfl⟩)
  rw [if_neg h]; clear h
  by_cases h : Word.opc w = Opc.crcInit
  · rw [if_pos h]; exact .inr (.inr (.inl ⟨.crcInit, rfl, fun v => by rw [h]; rfl⟩))
  rw [if_neg h]; clear h
  by_cases h : Word.opc w = Opc.crcByte
  · rw [if_pos h]; exact .inr (.inl ⟨.crcByte, rfl, fun b => by rw [h]; rfl⟩)
  rw [if_neg h]; clear h
  by_cases h : Word.opc w = Opc.frmHeader
  · rw [if_pos h]; exact .inl ⟨.frmHeader, rfl, by rw [h]; rfl⟩
  rw [if_neg h]; clear h
  by_cases h : Word.opc w = Opc.frmPayload
  · rw [if_pos h]; exact .inl ⟨.frmPayload, rfl, by rw [h]; rfl⟩
  rw [if_neg h]; clear h
  by_cases h : Word.opc w = Opc.frmValidate
  · rw [if_pos h]; exact .inl ⟨.frmValidate, rfl, by rw [h]; rfl⟩
  rw [if_neg h]; clear h
  by_cases h : Word.opc w = Opc.frmFull
  · rw [if_pos h]; exact .inl ⟨.frmFull, rfl, by rw [h]; rfl⟩
  rw [if_neg h]; clear h
  exact .inr (.inr (.inr rfl))

/-- An illegal word is reported by its opcode byte (30_encoding.md R67). -/
theorem decode_illegal {w : Word} {op : Byte} (h : decode w = .illegal op) : op = Word.opc w := by
  obtain ⟨i, hd, -⟩ | ⟨f, hd, -⟩ | ⟨f, hd, -⟩ | hd := decode_cases w
  · rw [hd, decodeNone] at h
    split at h <;> simp_all
  · rw [hd, decodeB8] at h
    split at h <;> simp_all
  · rw [hd, decodeImm16] at h
    split at h <;> simp_all
  · rw [hd] at h
    exact (Decoded.illegal.inj h).symm

end Sys2Proof
end

