-- ==== Sys2Proof/Laws/HexText.lean ====
section
/-!
SUPPORT. The laws of the hex decoder's pure functions (40_hexcodec.md R80-R85).
-/
namespace Sys2Proof.Machine

/-! ### Character classes -/

theorem isSep_iff (c : Byte) : isSep c = true ↔ c.toNat ∈ [0x09, 0x0A, 0x0B, 0x0C, 0x0D, 0x20, 0x7C] := by
  simp [isSep, BitVec.toNat_eq]

theorem isHexDigit_iff (c : Byte) :
    isHexDigit c = true ↔ (48 ≤ c.toNat ∧ c.toNat ≤ 57) ∨ (65 ≤ c.toNat ∧ c.toNat ≤ 70) ∨ (97 ≤ c.toNat ∧ c.toNat ≤ 102) := by
  simp [isHexDigit, BitVec.le_def]

/-- A hex digit is no separator and no half of a `0x` pair's second place. -/
theorem isHexDigit_plain {c : Byte} (h : isHexDigit c = true) : isSep c = false ∧ c ≠ chLowerX ∧ c ≠ chUpperX := by
  rw [isHexDigit_iff] at h
  refine ⟨?_, ?_, ?_⟩
  · rw [Bool.eq_false_iff, Ne, isSep_iff]
    simp
    omega
  · rintro rfl; simp at h
  · rintro rfl; simp at h

/-- A separator is no `x` and no `X`. -/
theorem isSep_plain {c : Byte} (h : isSep c = true) : c ≠ chLowerX ∧ c ≠ chUpperX := by
  constructor <;> (rintro rfl; exact absurd h (by decide))

/-! ### strip0x and sanitize -/

theorem is0xPair_iff (a b : Byte) : is0xPair a b = true ↔ a = chZero ∧ (b = chLowerX ∨ b = chUpperX) := by
  simp [is0xPair]

/-- `strip0x` emits at most one character per input character. -/
theorem length_strip0x_le (s : List Byte) : (strip0x s).length ≤ s.length := by
  induction s using strip0x.induct with
  | case1 => simp [strip0x]
  | case2 a => simp [strip0x]
  | case3 a b rest h ih => simp [strip0x, h]; omega
  | case4 a b rest h ih => simp [strip0x, h] at ih ⊢; omega

theorem mem_strip0x {s : List Byte} {c : Byte} (h : c ∈ strip0x s) : c ∈ s := by
  induction s using strip0x.induct with
  | case1 => simp [strip0x] at h
  | case2 a => simpa [strip0x] using h
  | case3 a b rest hp ih =>
    simp only [strip0x, hp, if_true] at h
    simp [ih h]
  | case4 a b rest hp ih =>
    simp only [strip0x, hp] at h
    rcases List.mem_cons.mp h with rfl | h
    · simp
    · have := ih h
      simp only [List.mem_cons] at this ⊢
      tauto

/-- A text with no `x` and no `X` has no pair to drop. -/
theorem strip0x_eq_self {s : List Byte} (h : ∀ c ∈ s, c ≠ chLowerX ∧ c ≠ chUpperX) : strip0x s = s := by
  induction s using strip0x.induct with
  | case1 => rfl
  | case2 a => rfl
  | case3 a b rest hp ih =>
    rw [is0xPair_iff] at hp
    have := h b (by simp)
    tauto
  | case4 a b rest hp ih =>
    simp only [strip0x, hp]
    simp only [Bool.false_eq_true, if_false]
    rw [ih (fun c hc => h c (by simp [List.mem_cons.mp hc]))]

/-- Sanitizing never lengthens a text (40_hexcodec.md R83). -/
theorem length_sanitize_le (s : List Byte) : (sanitize s).length ≤ s.length :=
  Nat.le_trans (List.length_filter_le _ _) (length_strip0x_le s)

theorem mem_sanitize {s : List Byte} {c : Byte} (h : c ∈ sanitize s) : c ∈ s ∧ isSep c = false := by
  simp only [sanitize, List.mem_filter, Bool.not_eq_true'] at h
  exact ⟨mem_strip0x h.1, h.2⟩

/-- A text with no `x`, no `X` and no separator is its own sanitized form. -/
theorem sanitize_eq_self {s : List Byte} (h : ∀ c ∈ s, isSep c = false ∧ c ≠ chLowerX ∧ c ≠ chUpperX) :
    sanitize s = s := by
  rw [sanitize, strip0x_eq_self (fun c hc => (h c hc).2)]
  exact List.filter_eq_self.mpr (fun c hc => by simp [(h c hc).1])

/-! ### Pairs -/

theorem length_hexPairs (t : List Byte) : (hexPairs t).length = t.length / 2 := by
  induction t using hexPairs.induct with
  | case1 hi lo rest ih => simp [hexPairs, ih]; omega
  | case2 t h =>
    match t with
    | [] => rfl
    | [a] => simp [hexPairs]
    | a :: b :: r => exact absurd rfl (h a b r)

theorem getD_hexPairs (t : List Byte) (k : Nat) (h : k < t.length / 2) :
    (hexPairs t).getD k 0 = hexByte (t.getD (2 * k) 0) (t.getD (2 * k + 1) 0) := by
  induction t using hexPairs.induct generalizing k with
  | case1 hi lo rest ih =>
    cases k with
    | zero => simp [hexPairs]
    | succ k =>
      have := ih k (by simp at h; omega)
      simp only [hexPairs, List.getD_cons_succ, this]
      rw [show 2 * (k + 1) = 2 * k + 1 + 1 by omega]
      simp only [List.getD_cons_succ]
  | case2 t ht =>
    match t with
    | [] => simp at h
    | [a] => simp at h
    | a :: b :: r => exact absurd rfl (ht a b r)

theorem toNat_hexByte (hi lo : Byte) : (hexByte hi lo).toNat = 16 * (hexVal hi).toNat + (hexVal lo).toNat := by
  have h1 := (hexVal hi).isLt
  have h2 := (hexVal lo).isLt
  simp only [hexByte, BitVec.toNat_append]
  rw [Nat.shiftLeft_eq, ← Nat.mul_comm (2 ^ 4), ← Nat.two_pow_add_eq_or_of_lt h2]

/-! ### hexDecode -/

theorem hexFaults_eq_nil (t : List Byte) :
    hexFaults t = [] ↔ t.length % 2 = 0 ∧ ∀ c ∈ t, isHexDigit c = true := by
  simp only [hexFaults, List.append_eq_nil_iff]
  constructor
  · rintro ⟨h1, h2⟩
    refine ⟨?_, ?_⟩
    · by_contra h
      rw [if_pos (by omega)] at h1
      simp at h1
    · intro c hc
      by_contra h
      rw [if_pos (List.any_eq_true.mpr ⟨c, hc, by simp [h]⟩)] at h2
      simp at h2
  · rintro ⟨h1, h2⟩
    refine ⟨by simp [h1], ?_⟩
    rw [if_neg]
    simpa using h2

theorem mem_hexFaults_hexOdd (t : List Byte) : FaultCode.hexOdd ∈ hexFaults t ↔ t.length % 2 = 1 := by
  simp only [hexFaults, List.mem_append]
  split <;> split <;> simp_all

theorem mem_hexFaults_hexDigit (t : List Byte) :
    FaultCode.hexDigit ∈ hexFaults t ↔ ∃ c ∈ t, isHexDigit c = false := by
  simp only [hexFaults, List.mem_append]
  split <;> split <;> simp_all

theorem mem_hexFaults (t : List Byte) (c : FaultCode) (h : c ∈ hexFaults t) : c = .hexOdd ∨ c = .hexDigit := by
  simp only [hexFaults, List.mem_append] at h
  rcases h with h | h <;> (split at h <;> simp_all)

theorem hexDecode_ok {s b : List Byte} (h : hexDecode s = .ok b) :
    hexFaults (sanitize s) = [] ∧ b = hexPairs (sanitize s) := by
  unfold hexDecode at h
  split at h
  · next hf => exact ⟨hf, (HexResult.ok.inj h).symm⟩
  · exact absurd h (by simp)

theorem hexDecode_malformed {s : List Byte} {f : List FaultCode} (h : hexDecode s = .malformed f) :
    f = hexFaults (sanitize s) ∧ f ≠ [] := by
  unfold hexDecode at h
  split at h
  · exact absurd h (by simp)
  · next hf =>
    have := HexResult.malformed.inj h
    exact ⟨this.symm, this ▸ hf⟩

/-- A decode gives at most one byte per two characters of the text (00_scope.md R6). -/
theorem hexDecode_length_le {s b : List Byte} (h : hexDecode s = .ok b) : b.length ≤ s.length / 2 := by
  obtain ⟨-, rfl⟩ := hexDecode_ok h
  rw [length_hexPairs]
  exact Nat.div_le_div_right (length_sanitize_le s)

/-! ### Hex spellings -/

theorem HexTextOf.plain {t b : List Byte} (h : HexTextOf t b) : ∀ c ∈ t, c ≠ chLowerX ∧ c ≠ chUpperX := by
  induction h with
  | nil => simp
  | sep c t b hc _ ih =>
    intro d hd
    rcases List.mem_cons.mp hd with rfl | hd
    · exact isSep_plain hc
    · exact ih d hd
  | pair hi lo t b h1 h2 _ ih =>
    intro d hd
    rcases List.mem_cons.mp hd with rfl | hd
    · exact (isHexDigit_plain h1).2
    · rcases List.mem_cons.mp hd with rfl | hd
      · exact (isHexDigit_plain h2).2
      · exact ih d hd

/-- The digits of a spelling, without its separators, pair up to the bytes it spells. -/
theorem HexTextOf.filter {t b : List Byte} (h : HexTextOf t b) :
    (∀ c ∈ t.filter (fun c => !isSep c), isHexDigit c = true) ∧ (t.filter (fun c => !isSep c)).length % 2 = 0
      ∧ hexPairs (t.filter (fun c => !isSep c)) = b := by
  induction h with
  | nil => simp [hexPairs]
  | sep c t b hc _ ih => simpa [hc] using ih
  | pair hi lo t b h1 h2 _ ih =>
    have e1 := (isHexDigit_plain h1).1
    have e2 := (isHexDigit_plain h2).1
    refine ⟨?_, ?_, ?_⟩
    · intro c hc
      simp [e1, e2] at hc
      rcases hc with rfl | rfl | hc
      · exact h1
      · exact h2
      · exact ih.1 c (by simp [hc])
    · have := ih.2.1
      simp [e1, e2]; omega
    · simp [e1, e2, hexPairs]; exact ih.2.2

end Sys2Proof.Machine
end

