-- ==== Sys2Proof/Laws/Memory.lean ====
section
/-!
SUPPORT. The laws of the two internal memories: a read after a write, the frame of a write, the canonical form and
the capacity kept, and runs of elements read back.
-/
namespace Sys2Proof.Machine

/-! ### One element -/

theorem read_erase (m : Memory) (a b : Nat) :
    Memory.read (Memory.erase m a) b = if b = a then Memory.unlisted else Memory.read m b := by
  induction m with
  | nil => simp [Memory.erase, Memory.read]
  | cons c rest ih =>
    obtain ⟨k, u⟩ := c
    by_cases hk : k = a
    · subst hk
      have : Memory.erase ((k, u) :: rest) k = Memory.erase rest k := by simp [Memory.erase]
      rw [this, ih]
      by_cases hb : b = k
      · simp [hb]
      · simp [hb, Memory.read, Ne.symm hb]
    · have : Memory.erase ((k, u) :: rest) a = (k, u) :: Memory.erase rest a := by simp [Memory.erase, hk]
      rw [this]
      simp only [Memory.read, ih]
      by_cases hb : k = b
      · subst hb; simp [hk]
      · simp [hb]

theorem read_insert (m : Memory) (a b : Nat) (v : Byte) (h : ∀ c ∈ m, c.1 ≠ a) :
    Memory.read (Memory.insert m a v) b = if b = a then v else Memory.read m b := by
  induction m with
  | nil => simp only [Memory.insert, Memory.read]; by_cases hb : b = a <;> simp [hb, eq_comm (a := a)]
  | cons c rest ih =>
    obtain ⟨k, u⟩ := c
    have hk : k ≠ a := h (k, u) (by simp)
    simp only [Memory.insert]
    split
    · by_cases hb : b = a
      · simp [hb, Memory.read]
      · simp [hb, Memory.read, Ne.symm hb]
    · simp only [Memory.read, ih (fun c hc => h c (by simp [hc]))]
      by_cases hb : k = b
      · subst hb; simp [hk]
      · simp [hb]

theorem erase_ne (m : Memory) (a : Nat) : ∀ c ∈ Memory.erase m a, c.1 ≠ a := by
  intro c hc
  simp [Memory.erase] at hc
  exact hc.2

/-- A read after a write: the value written at its index, the old value everywhere else. -/
@[simp] theorem read_write (m : Memory) (a b : Nat) (v : Byte) :
    Memory.read (Memory.write m a v) b = if b = a then v else Memory.read m b := by
  simp only [Memory.write]
  split
  · next h => rw [read_erase, h]
  · rw [read_insert _ _ _ _ (erase_ne m a), read_erase]
    split <;> rfl

/-! ### The canonical form and the capacity -/

theorem wfFrom_mono {lo lo' : Nat} (m : Memory) (h : lo' ≤ lo) (hm : Memory.wfFrom lo m = true) :
    Memory.wfFrom lo' m = true := by
  cases m with
  | nil => rfl
  | cons c rest =>
    obtain ⟨k, u⟩ := c
    simp only [Memory.wfFrom, Bool.and_eq_true, decide_eq_true_eq] at hm ⊢
    exact ⟨⟨by omega, hm.1.2⟩, hm.2⟩

theorem wfFrom_erase (m : Memory) (lo a : Nat) (hm : Memory.wfFrom lo m = true) :
    Memory.wfFrom lo (Memory.erase m a) = true := by
  induction m generalizing lo with
  | nil => rfl
  | cons c rest ih =>
    obtain ⟨k, u⟩ := c
    simp only [Memory.wfFrom, Bool.and_eq_true, decide_eq_true_eq] at hm
    by_cases hk : k = a
    · have : Memory.erase ((k, u) :: rest) a = Memory.erase rest a := by simp [Memory.erase, hk]
      rw [this]
      exact wfFrom_mono _ (by omega) (ih (k + 1) hm.2)
    · have : Memory.erase ((k, u) :: rest) a = (k, u) :: Memory.erase rest a := by simp [Memory.erase, hk]
      rw [this]
      simp only [Memory.wfFrom, Bool.and_eq_true, decide_eq_true_eq]
      exact ⟨hm.1, ih (k + 1) hm.2⟩

theorem wfFrom_insert (m : Memory) (lo a : Nat) (v : Byte) (hv : v ≠ Memory.unlisted) (ha : lo ≤ a)
    (hne : ∀ c ∈ m, c.1 ≠ a) (hm : Memory.wfFrom lo m = true) : Memory.wfFrom lo (Memory.insert m a v) = true := by
  induction m generalizing lo with
  | nil => simp [Memory.insert, Memory.wfFrom, ha, hv]
  | cons c rest ih =>
    obtain ⟨k, u⟩ := c
    have hk : k ≠ a := hne (k, u) (by simp)
    simp only [Memory.wfFrom, Bool.and_eq_true, decide_eq_true_eq] at hm
    simp only [Memory.insert]
    split
    · simp only [Memory.wfFrom, Bool.and_eq_true, decide_eq_true_eq]
      exact ⟨⟨ha, hv⟩, ⟨by omega, hm.1.2⟩, hm.2⟩
    · simp only [Memory.wfFrom, Bool.and_eq_true, decide_eq_true_eq]
      exact ⟨hm.1, ih (k + 1) (by omega) (fun c hc => hne c (by simp [hc])) hm.2⟩

/-- A write keeps the canonical form. -/
theorem wf_write (m : Memory) (a : Nat) (v : Byte) (hm : Memory.wf m = true) :
    Memory.wf (Memory.write m a v) = true := by
  simp only [Memory.write]
  split
  · exact wfFrom_erase m 0 a hm
  · next hv => exact wfFrom_insert _ 0 a v hv (Nat.zero_le a) (erase_ne m a) (wfFrom_erase m 0 a hm)

theorem below_erase (n a : Nat) (m : Memory) (hm : Memory.below n m = true) :
    Memory.below n (Memory.erase m a) = true := by
  simp only [Memory.below, Memory.erase, List.all_eq_true, List.mem_filter] at hm ⊢
  exact fun c hc => hm c hc.1

theorem below_insert (n a : Nat) (v : Byte) (m : Memory) (ha : a < n) (hm : Memory.below n m = true) :
    Memory.below n (Memory.insert m a v) = true := by
  induction m with
  | nil => simp [Memory.below, Memory.insert, ha]
  | cons c rest ih =>
    obtain ⟨k, u⟩ := c
    simp only [Memory.below, List.all_cons, Bool.and_eq_true, decide_eq_true_eq] at hm ih
    simp only [Memory.insert]
    split
    · simp only [Memory.below, List.all_cons, Bool.and_eq_true, decide_eq_true_eq]
      exact ⟨ha, hm.1, hm.2⟩
    · simp only [Memory.below, List.all_cons, Bool.and_eq_true, decide_eq_true_eq]
      exact ⟨hm.1, ih hm.2⟩

/-- A write inside the capacity keeps the memory inside it. -/
theorem below_write (n a : Nat) (v : Byte) (m : Memory) (ha : a < n) (hm : Memory.below n m = true) :
    Memory.below n (Memory.write m a v) = true := by
  simp only [Memory.write]
  split
  · exact below_erase n a m hm
  · exact below_insert n a v _ ha (below_erase n a m hm)

/-! ### Runs of elements -/

/-- A read after a run was written: the run's value inside it, the old value everywhere else. -/
theorem read_writeSeq (m : Memory) (i b : Nat) (bs : List Byte) :
    Memory.read (Memory.writeSeq m i bs) b
      = if i ≤ b ∧ b < i + bs.length then bs.getD (b - i) 0 else Memory.read m b := by
  induction bs generalizing m i with
  | nil => simp [Memory.writeSeq]
  | cons x xs ih =>
    simp only [Memory.writeSeq, ih, read_write, List.length_cons]
    by_cases h1 : b = i
    · subst h1
      simp
    · by_cases h2 : i + 1 ≤ b ∧ b < i + 1 + xs.length
      · rw [if_pos h2, if_pos (by omega)]
        obtain ⟨d, rfl⟩ : ∃ d, b = i + 1 + d := ⟨b - (i + 1), by omega⟩
        rw [show i + 1 + d - i = d + 1 by omega, show i + 1 + d - (i + 1) = d by omega]
        simp
      · rw [if_neg h2, if_neg h1, if_neg (by omega)]

theorem wf_writeSeq (m : Memory) (i : Nat) (bs : List Byte) (hm : Memory.wf m = true) :
    Memory.wf (Memory.writeSeq m i bs) = true := by
  induction bs generalizing m i with
  | nil => exact hm
  | cons x xs ih => exact ih _ _ (wf_write m i x hm)

theorem below_writeSeq (n : Nat) (m : Memory) (i : Nat) (bs : List Byte) (hn : i + bs.length ≤ n)
    (hm : Memory.below n m = true) : Memory.below n (Memory.writeSeq m i bs) = true := by
  induction bs generalizing m i with
  | nil => exact hm
  | cons x xs ih =>
    simp only [List.length_cons] at hn
    exact ih _ _ (by omega) (below_write n i x m (by omega) hm)

@[simp] theorem length_readSeq (m : Memory) (n : Nat) : (Memory.readSeq m n).length = n := by
  simp [Memory.readSeq]

theorem getElem?_readSeq (m : Memory) (n i : Nat) :
    (Memory.readSeq m n)[i]? = if i < n then some (Memory.read m i) else none := by
  simp only [Memory.readSeq, List.getElem?_map]
  by_cases h : i < n
  · simp [h]
  · simp [h]

@[simp] theorem readSeq_zero (m : Memory) : Memory.readSeq m 0 = [] := rfl

/-- Two memories that agree below `n` hold the same run. -/
theorem readSeq_congr {m m' : Memory} {n : Nat} (h : ∀ i, i < n → Memory.read m i = Memory.read m' i) :
    Memory.readSeq m n = Memory.readSeq m' n := by
  simp only [Memory.readSeq]
  exact List.map_congr_left (fun i hi => h i (List.mem_range.mp hi))

/-- Equal runs agree element by element. -/
theorem read_eq_of_readSeq_eq {m m' : Memory} {n i : Nat} (h : Memory.readSeq m n = Memory.readSeq m' n) (hi : i < n) :
    Memory.read m i = Memory.read m' i := by
  have := congrArg (fun l : List Byte => l[i]?) h
  simp only [getElem?_readSeq, hi, if_true] at this
  exact Option.some.inj this

/-- A run written from index 0 reads back whole. -/
@[simp] theorem readSeq_writeSeq (m : Memory) (bs : List Byte) :
    Memory.readSeq (Memory.writeSeq m 0 bs) bs.length = bs := by
  apply List.ext_getElem?
  intro i
  rw [getElem?_readSeq]
  split
  · next h => simp [read_writeSeq, h]
  · next h => simp [Nat.le_of_not_lt h]

/-- Writing the element just beyond a run makes the run one longer. -/
theorem readSeq_write_succ (m : Memory) (n : Nat) (v : Byte) :
    Memory.readSeq (Memory.write m n v) (n + 1) = Memory.readSeq m n ++ [v] := by
  simp only [Memory.readSeq, List.range_succ, List.map_append, List.map_cons, List.map_nil, read_write, if_pos]
  congr 1
  refine List.map_congr_left (fun i hi => ?_)
  rw [read_write, if_neg (Nat.ne_of_lt (List.mem_range.mp hi))]

/-! ### The text and the byte sequence -/

/-- Both memories are canonical after reset. -/
theorem wf_reset : Memory.wf State.reset.tbuf = true ∧ Memory.wf State.reset.bbuf = true := ⟨rfl, rfl⟩

theorem text_length (s : State) : (State.text s).length = s.tlen.toNat := length_readSeq _ _

theorem bytes_length (s : State) : (State.bytes s).length = s.bcount.toNat := length_readSeq _ _

theorem text_length_lt (s : State) : (State.text s).length < 65536 := by
  rw [text_length]; exact s.tlen.isLt

end Sys2Proof.Machine
end

