-- ==== Sys2Proof/Laws/State.lean ====
section
/-!
SUPPORT. One lemma per field per update: what each shared operation leaves in each register. No later proof unfolds a
record update.
-/
namespace Sys2Proof.Machine

variable (s : State)

/-! ### The end of a command. -/

@[simp] theorem retire_cfg (op : Byte) (o : CmdOutcome) : (State.retire op o s).cfg = s.cfg := rfl
@[simp] theorem retire_crc (op : Byte) (o : CmdOutcome) : (State.retire op o s).crc = s.crc := rfl
@[simp] theorem retire_csum (op : Byte) (o : CmdOutcome) : (State.retire op o s).csum = s.csum := rfl
@[simp] theorem retire_tbuf (op : Byte) (o : CmdOutcome) : (State.retire op o s).tbuf = s.tbuf := rfl
@[simp] theorem retire_tlen (op : Byte) (o : CmdOutcome) : (State.retire op o s).tlen = s.tlen := rfl
@[simp] theorem retire_bbuf (op : Byte) (o : CmdOutcome) : (State.retire op o s).bbuf = s.bbuf := rfl
@[simp] theorem retire_bcount (op : Byte) (o : CmdOutcome) : (State.retire op o s).bcount = s.bcount := rfl
@[simp] theorem retire_cmdstat (op : Byte) (o : CmdOutcome) : (State.retire op o s).cmdstat = cmdstatWord op o := rfl
@[simp] theorem retire_resStatus (op : Byte) (o : CmdOutcome) : (State.retire op o s).resStatus = s.resStatus := rfl
@[simp] theorem retire_resFaults (op : Byte) (o : CmdOutcome) : (State.retire op o s).resFaults = s.resFaults := rfl
@[simp] theorem retire_resDev (op : Byte) (o : CmdOutcome) : (State.retire op o s).resDev = s.resDev := rfl
@[simp] theorem retire_resCmd (op : Byte) (o : CmdOutcome) : (State.retire op o s).resCmd = s.resCmd := rfl
@[simp] theorem retire_resLen (op : Byte) (o : CmdOutcome) : (State.retire op o s).resLen = s.resLen := rfl
@[simp] theorem retire_resCsumGiven (op : Byte) (o : CmdOutcome) :
    (State.retire op o s).resCsumGiven
      = s.resCsumGiven := rfl
@[simp] theorem retire_resCsumCalc (op : Byte) (o : CmdOutcome) :
    (State.retire op o s).resCsumCalc
      = s.resCsumCalc := rfl
@[simp] theorem retire_resCrcGiven (op : Byte) (o : CmdOutcome) :
    (State.retire op o s).resCrcGiven
      = s.resCrcGiven := rfl
@[simp] theorem retire_resCrcCalc (op : Byte) (o : CmdOutcome) :
    (State.retire op o s).resCrcCalc
      = s.resCrcCalc := rfl
@[simp] theorem retire_resFlags (op : Byte) (o : CmdOutcome) : (State.retire op o s).resFlags = s.resFlags := rfl
@[simp] theorem retire_pending (op : Byte) (o : CmdOutcome) : (State.retire op o s).pending = s.pending := rfl

/-! ### Replacing the text. -/

@[simp] theorem putText_cfg (l : List Byte) : (State.putText l s).cfg = s.cfg := rfl
@[simp] theorem putText_crc (l : List Byte) : (State.putText l s).crc = s.crc := rfl
@[simp] theorem putText_csum (l : List Byte) : (State.putText l s).csum = s.csum := rfl
@[simp] theorem putText_tbuf (l : List Byte) : (State.putText l s).tbuf = Memory.writeSeq s.tbuf 0 l := rfl
@[simp] theorem putText_tlen (l : List Byte) : (State.putText l s).tlen = BitVec.ofNat 16 l.length := rfl
@[simp] theorem putText_bbuf (l : List Byte) : (State.putText l s).bbuf = s.bbuf := rfl
@[simp] theorem putText_bcount (l : List Byte) : (State.putText l s).bcount = s.bcount := rfl
@[simp] theorem putText_cmdstat (l : List Byte) : (State.putText l s).cmdstat = s.cmdstat := rfl
@[simp] theorem putText_resStatus (l : List Byte) : (State.putText l s).resStatus = s.resStatus := rfl
@[simp] theorem putText_resFaults (l : List Byte) : (State.putText l s).resFaults = s.resFaults := rfl
@[simp] theorem putText_resDev (l : List Byte) : (State.putText l s).resDev = s.resDev := rfl
@[simp] theorem putText_resCmd (l : List Byte) : (State.putText l s).resCmd = s.resCmd := rfl
@[simp] theorem putText_resLen (l : List Byte) : (State.putText l s).resLen = s.resLen := rfl
@[simp] theorem putText_resCsumGiven (l : List Byte) : (State.putText l s).resCsumGiven = s.resCsumGiven := rfl
@[simp] theorem putText_resCsumCalc (l : List Byte) : (State.putText l s).resCsumCalc = s.resCsumCalc := rfl
@[simp] theorem putText_resCrcGiven (l : List Byte) : (State.putText l s).resCrcGiven = s.resCrcGiven := rfl
@[simp] theorem putText_resCrcCalc (l : List Byte) : (State.putText l s).resCrcCalc = s.resCrcCalc := rfl
@[simp] theorem putText_resFlags (l : List Byte) : (State.putText l s).resFlags = s.resFlags := rfl
@[simp] theorem putText_pending (l : List Byte) : (State.putText l s).pending = s.pending := rfl

/-! ### Appending one character. -/

@[simp] theorem appendChar_cfg (c : Byte) : (State.appendChar c s).cfg = s.cfg := rfl
@[simp] theorem appendChar_crc (c : Byte) : (State.appendChar c s).crc = s.crc := rfl
@[simp] theorem appendChar_csum (c : Byte) : (State.appendChar c s).csum = s.csum := rfl
@[simp] theorem appendChar_tbuf (c : Byte) : (State.appendChar c s).tbuf = Memory.write s.tbuf s.tlen.toNat c := rfl
@[simp] theorem appendChar_tlen (c : Byte) : (State.appendChar c s).tlen = s.tlen + 1 := rfl
@[simp] theorem appendChar_bbuf (c : Byte) : (State.appendChar c s).bbuf = s.bbuf := rfl
@[simp] theorem appendChar_bcount (c : Byte) : (State.appendChar c s).bcount = s.bcount := rfl
@[simp] theorem appendChar_cmdstat (c : Byte) : (State.appendChar c s).cmdstat = s.cmdstat := rfl
@[simp] theorem appendChar_resStatus (c : Byte) : (State.appendChar c s).resStatus = s.resStatus := rfl
@[simp] theorem appendChar_resFaults (c : Byte) : (State.appendChar c s).resFaults = s.resFaults := rfl
@[simp] theorem appendChar_resDev (c : Byte) : (State.appendChar c s).resDev = s.resDev := rfl
@[simp] theorem appendChar_resCmd (c : Byte) : (State.appendChar c s).resCmd = s.resCmd := rfl
@[simp] theorem appendChar_resLen (c : Byte) : (State.appendChar c s).resLen = s.resLen := rfl
@[simp] theorem appendChar_resCsumGiven (c : Byte) : (State.appendChar c s).resCsumGiven = s.resCsumGiven := rfl
@[simp] theorem appendChar_resCsumCalc (c : Byte) : (State.appendChar c s).resCsumCalc = s.resCsumCalc := rfl
@[simp] theorem appendChar_resCrcGiven (c : Byte) : (State.appendChar c s).resCrcGiven = s.resCrcGiven := rfl
@[simp] theorem appendChar_resCrcCalc (c : Byte) : (State.appendChar c s).resCrcCalc = s.resCrcCalc := rfl
@[simp] theorem appendChar_resFlags (c : Byte) : (State.appendChar c s).resFlags = s.resFlags := rfl
@[simp] theorem appendChar_pending (c : Byte) : (State.appendChar c s).pending = s.pending := rfl

/-! ### Replacing the byte sequence. -/

@[simp] theorem putBytes_cfg (l : List Byte) : (State.putBytes l s).cfg = s.cfg := rfl
@[simp] theorem putBytes_crc (l : List Byte) : (State.putBytes l s).crc = s.crc := rfl
@[simp] theorem putBytes_csum (l : List Byte) : (State.putBytes l s).csum = s.csum := rfl
@[simp] theorem putBytes_tbuf (l : List Byte) : (State.putBytes l s).tbuf = s.tbuf := rfl
@[simp] theorem putBytes_tlen (l : List Byte) : (State.putBytes l s).tlen = s.tlen := rfl
@[simp] theorem putBytes_bbuf (l : List Byte) : (State.putBytes l s).bbuf = Memory.writeSeq s.bbuf 0 l := rfl
@[simp] theorem putBytes_bcount (l : List Byte) : (State.putBytes l s).bcount = BitVec.ofNat 16 l.length := rfl
@[simp] theorem putBytes_cmdstat (l : List Byte) : (State.putBytes l s).cmdstat = s.cmdstat := rfl
@[simp] theorem putBytes_resStatus (l : List Byte) : (State.putBytes l s).resStatus = s.resStatus := rfl
@[simp] theorem putBytes_resFaults (l : List Byte) : (State.putBytes l s).resFaults = s.resFaults := rfl
@[simp] theorem putBytes_resDev (l : List Byte) : (State.putBytes l s).resDev = s.resDev := rfl
@[simp] theorem putBytes_resCmd (l : List Byte) : (State.putBytes l s).resCmd = s.resCmd := rfl
@[simp] theorem putBytes_resLen (l : List Byte) : (State.putBytes l s).resLen = s.resLen := rfl
@[simp] theorem putBytes_resCsumGiven (l : List Byte) : (State.putBytes l s).resCsumGiven = s.resCsumGiven := rfl
@[simp] theorem putBytes_resCsumCalc (l : List Byte) : (State.putBytes l s).resCsumCalc = s.resCsumCalc := rfl
@[simp] theorem putBytes_resCrcGiven (l : List Byte) : (State.putBytes l s).resCrcGiven = s.resCrcGiven := rfl
@[simp] theorem putBytes_resCrcCalc (l : List Byte) : (State.putBytes l s).resCrcCalc = s.resCrcCalc := rfl
@[simp] theorem putBytes_resFlags (l : List Byte) : (State.putBytes l s).resFlags = s.resFlags := rfl
@[simp] theorem putBytes_pending (l : List Byte) : (State.putBytes l s).pending = s.pending := rfl

/-! ### Clearing the results. -/

@[simp] theorem clearResults_cfg (op : Byte) : (State.clearResults op s).cfg = s.cfg := rfl
@[simp] theorem clearResults_crc (op : Byte) : (State.clearResults op s).crc = s.crc := rfl
@[simp] theorem clearResults_csum (op : Byte) : (State.clearResults op s).csum = s.csum := rfl
@[simp] theorem clearResults_tbuf (op : Byte) : (State.clearResults op s).tbuf = s.tbuf := rfl
@[simp] theorem clearResults_tlen (op : Byte) : (State.clearResults op s).tlen = s.tlen := rfl
@[simp] theorem clearResults_bbuf (op : Byte) : (State.clearResults op s).bbuf = s.bbuf := rfl
@[simp] theorem clearResults_bcount (op : Byte) : (State.clearResults op s).bcount = s.bcount := rfl
@[simp] theorem clearResults_cmdstat (op : Byte) : (State.clearResults op s).cmdstat = s.cmdstat := rfl
@[simp] theorem clearResults_resStatus (op : Byte) :
    (State.clearResults op s).resStatus
      = resStatusWord op false false false .none := rfl
@[simp] theorem clearResults_resFaults (op : Byte) : (State.clearResults op s).resFaults = 0 := rfl
@[simp] theorem clearResults_resDev (op : Byte) : (State.clearResults op s).resDev = 0 := rfl
@[simp] theorem clearResults_resCmd (op : Byte) : (State.clearResults op s).resCmd = 0 := rfl
@[simp] theorem clearResults_resLen (op : Byte) : (State.clearResults op s).resLen = 0 := rfl
@[simp] theorem clearResults_resCsumGiven (op : Byte) : (State.clearResults op s).resCsumGiven = 0 := rfl
@[simp] theorem clearResults_resCsumCalc (op : Byte) : (State.clearResults op s).resCsumCalc = 0 := rfl
@[simp] theorem clearResults_resCrcGiven (op : Byte) : (State.clearResults op s).resCrcGiven = 0 := rfl
@[simp] theorem clearResults_resCrcCalc (op : Byte) : (State.clearResults op s).resCrcCalc = 0 := rfl
@[simp] theorem clearResults_resFlags (op : Byte) : (State.clearResults op s).resFlags = 0 := rfl
@[simp] theorem clearResults_pending (op : Byte) : (State.clearResults op s).pending = s.pending := rfl

/-! ### MalformedHex. -/

@[simp] theorem raiseMalformedHex_cfg (op : Byte) (f : List FaultCode) :
    (State.raiseMalformedHex op f s).cfg
      = s.cfg := rfl
@[simp] theorem raiseMalformedHex_crc (op : Byte) (f : List FaultCode) :
    (State.raiseMalformedHex op f s).crc
      = s.crc := rfl
@[simp] theorem raiseMalformedHex_csum (op : Byte) (f : List FaultCode) :
    (State.raiseMalformedHex op f s).csum
      = s.csum := rfl
@[simp] theorem raiseMalformedHex_tbuf (op : Byte) (f : List FaultCode) :
    (State.raiseMalformedHex op f s).tbuf
      = s.tbuf := rfl
@[simp] theorem raiseMalformedHex_tlen (op : Byte) (f : List FaultCode) :
    (State.raiseMalformedHex op f s).tlen
      = s.tlen := rfl
@[simp] theorem raiseMalformedHex_bbuf (op : Byte) (f : List FaultCode) :
    (State.raiseMalformedHex op f s).bbuf
      = s.bbuf := rfl
@[simp] theorem raiseMalformedHex_bcount (op : Byte) (f : List FaultCode) :
    (State.raiseMalformedHex op f s).bcount
      = 0 := rfl
@[simp] theorem raiseMalformedHex_cmdstat (op : Byte) (f : List FaultCode) :
    (State.raiseMalformedHex op f s).cmdstat
      = s.cmdstat := rfl
@[simp] theorem raiseMalformedHex_resStatus (op : Byte) (f : List FaultCode) :
    (State.raiseMalformedHex op f s).resStatus
      = resStatusWord op false false false .malformedHex := rfl
@[simp] theorem raiseMalformedHex_resFaults (op : Byte) (f : List FaultCode) :
    (State.raiseMalformedHex op f s).resFaults
      = faultBits f := rfl
@[simp] theorem raiseMalformedHex_resDev (op : Byte) (f : List FaultCode) :
    (State.raiseMalformedHex op f s).resDev
      = s.resDev := rfl
@[simp] theorem raiseMalformedHex_resCmd (op : Byte) (f : List FaultCode) :
    (State.raiseMalformedHex op f s).resCmd
      = s.resCmd := rfl
@[simp] theorem raiseMalformedHex_resLen (op : Byte) (f : List FaultCode) :
    (State.raiseMalformedHex op f s).resLen
      = s.resLen := rfl
@[simp] theorem raiseMalformedHex_resCsumGiven (op : Byte) (f : List FaultCode) :
    (State.raiseMalformedHex op f s).resCsumGiven
      = s.resCsumGiven := rfl
@[simp] theorem raiseMalformedHex_resCsumCalc (op : Byte) (f : List FaultCode) :
    (State.raiseMalformedHex op f s).resCsumCalc
      = s.resCsumCalc := rfl
@[simp] theorem raiseMalformedHex_resCrcGiven (op : Byte) (f : List FaultCode) :
    (State.raiseMalformedHex op f s).resCrcGiven
      = s.resCrcGiven := rfl
@[simp] theorem raiseMalformedHex_resCrcCalc (op : Byte) (f : List FaultCode) :
    (State.raiseMalformedHex op f s).resCrcCalc
      = s.resCrcCalc := rfl
@[simp] theorem raiseMalformedHex_resFlags (op : Byte) (f : List FaultCode) :
    (State.raiseMalformedHex op f s).resFlags
      = s.resFlags := rfl
@[simp] theorem raiseMalformedHex_pending (op : Byte) (f : List FaultCode) :
    (State.raiseMalformedHex op f s).pending
      = s.pending := rfl

/-! ### InvalidFrame. -/

@[simp] theorem raiseInvalidFrame_cfg (op : Byte) (f : List FaultCode) :
    (State.raiseInvalidFrame op f s).cfg
      = s.cfg := rfl
@[simp] theorem raiseInvalidFrame_crc (op : Byte) (f : List FaultCode) :
    (State.raiseInvalidFrame op f s).crc
      = s.crc := rfl
@[simp] theorem raiseInvalidFrame_csum (op : Byte) (f : List FaultCode) :
    (State.raiseInvalidFrame op f s).csum
      = s.csum := rfl
@[simp] theorem raiseInvalidFrame_tbuf (op : Byte) (f : List FaultCode) :
    (State.raiseInvalidFrame op f s).tbuf
      = s.tbuf := rfl
@[simp] theorem raiseInvalidFrame_tlen (op : Byte) (f : List FaultCode) :
    (State.raiseInvalidFrame op f s).tlen
      = s.tlen := rfl
@[simp] theorem raiseInvalidFrame_bbuf (op : Byte) (f : List FaultCode) :
    (State.raiseInvalidFrame op f s).bbuf
      = s.bbuf := rfl
@[simp] theorem raiseInvalidFrame_bcount (op : Byte) (f : List FaultCode) :
    (State.raiseInvalidFrame op f s).bcount
      = s.bcount := rfl
@[simp] theorem raiseInvalidFrame_cmdstat (op : Byte) (f : List FaultCode) :
    (State.raiseInvalidFrame op f s).cmdstat
      = s.cmdstat := rfl
@[simp] theorem raiseInvalidFrame_resStatus (op : Byte) (f : List FaultCode) :
    (State.raiseInvalidFrame op f s).resStatus
      = resStatusWord op false false false .invalidFrame := rfl
@[simp] theorem raiseInvalidFrame_resFaults (op : Byte) (f : List FaultCode) :
    (State.raiseInvalidFrame op f s).resFaults
      = faultBits f := rfl
@[simp] theorem raiseInvalidFrame_resDev (op : Byte) (f : List FaultCode) :
    (State.raiseInvalidFrame op f s).resDev
      = s.resDev := rfl
@[simp] theorem raiseInvalidFrame_resCmd (op : Byte) (f : List FaultCode) :
    (State.raiseInvalidFrame op f s).resCmd
      = s.resCmd := rfl
@[simp] theorem raiseInvalidFrame_resLen (op : Byte) (f : List FaultCode) :
    (State.raiseInvalidFrame op f s).resLen
      = s.resLen := rfl
@[simp] theorem raiseInvalidFrame_resCsumGiven (op : Byte) (f : List FaultCode) :
    (State.raiseInvalidFrame op f s).resCsumGiven
      = s.resCsumGiven := rfl
@[simp] theorem raiseInvalidFrame_resCsumCalc (op : Byte) (f : List FaultCode) :
    (State.raiseInvalidFrame op f s).resCsumCalc
      = s.resCsumCalc := rfl
@[simp] theorem raiseInvalidFrame_resCrcGiven (op : Byte) (f : List FaultCode) :
    (State.raiseInvalidFrame op f s).resCrcGiven
      = s.resCrcGiven := rfl
@[simp] theorem raiseInvalidFrame_resCrcCalc (op : Byte) (f : List FaultCode) :
    (State.raiseInvalidFrame op f s).resCrcCalc
      = s.resCrcCalc := rfl
@[simp] theorem raiseInvalidFrame_resFlags (op : Byte) (f : List FaultCode) :
    (State.raiseInvalidFrame op f s).resFlags
      = s.resFlags := rfl
@[simp] theorem raiseInvalidFrame_pending (op : Byte) (f : List FaultCode) :
    (State.raiseInvalidFrame op f s).pending
      = s.pending := rfl

/-! ### The result of a frame command that does not fail. -/

@[simp] theorem populate_cfg (k : FrameCmd) (b : List Byte) : (State.populate k b s).cfg = s.cfg := rfl
@[simp] theorem populate_crc (k : FrameCmd) (b : List Byte) : (State.populate k b s).crc = s.crc := rfl
@[simp] theorem populate_csum (k : FrameCmd) (b : List Byte) : (State.populate k b s).csum = s.csum := rfl
@[simp] theorem populate_tbuf (k : FrameCmd) (b : List Byte) : (State.populate k b s).tbuf = s.tbuf := rfl
@[simp] theorem populate_tlen (k : FrameCmd) (b : List Byte) : (State.populate k b s).tlen = s.tlen := rfl
@[simp] theorem populate_bbuf (k : FrameCmd) (b : List Byte) : (State.populate k b s).bbuf = s.bbuf := rfl
@[simp] theorem populate_bcount (k : FrameCmd) (b : List Byte) : (State.populate k b s).bcount = s.bcount := rfl
@[simp] theorem populate_cmdstat (k : FrameCmd) (b : List Byte) : (State.populate k b s).cmdstat = s.cmdstat := rfl
@[simp] theorem populate_resStatus (k : FrameCmd) (b : List Byte) :
    (State.populate k b s).resStatus
      = resStatusWord k.opcode k.populatesIntegrity k.populatesPayload true .ok := rfl
@[simp] theorem populate_resFaults (k : FrameCmd) (b : List Byte) :
    (State.populate k b s).resFaults
      = faultBits (structCheck b) := rfl
@[simp] theorem populate_resDev (k : FrameCmd) (b : List Byte) : (State.populate k b s).resDev = byteAt b 1 := rfl
@[simp] theorem populate_resCmd (k : FrameCmd) (b : List Byte) : (State.populate k b s).resCmd = byteAt b 2 := rfl
@[simp] theorem populate_resLen (k : FrameCmd) (b : List Byte) : (State.populate k b s).resLen = byteAt b 3 := rfl
@[simp] theorem populate_resCsumGiven (k : FrameCmd) (b : List Byte) :
    (State.populate k b s).resCsumGiven
      = if k.populatesIntegrity then (integrity b).csumGiven else 0 := rfl
@[simp] theorem populate_resCsumCalc (k : FrameCmd) (b : List Byte) :
    (State.populate k b s).resCsumCalc
      = if k.populatesIntegrity then (integrity b).csumCalc else 0 := rfl
@[simp] theorem populate_resCrcGiven (k : FrameCmd) (b : List Byte) :
    (State.populate k b s).resCrcGiven
      = if k.populatesIntegrity then (integrity b).crcGiven else 0 := rfl
@[simp] theorem populate_resCrcCalc (k : FrameCmd) (b : List Byte) :
    (State.populate k b s).resCrcCalc
      = if k.populatesIntegrity then (integrity b).crcCalc else 0 := rfl
@[simp] theorem populate_resFlags (k : FrameCmd) (b : List Byte) :
    (State.populate k b s).resFlags
      = if k.populatesIntegrity then flagsWord (integrity b).crcValid (integrity b).csumValid else 0 := rfl
@[simp] theorem populate_pending (k : FrameCmd) (b : List Byte) : (State.populate k b s).pending = s.pending := rfl

/-! ### Reset. -/

@[simp] theorem applyReset_cfg : (State.applyReset s).cfg = s.cfg := rfl
@[simp] theorem applyReset_crc : (State.applyReset s).crc = 0xFFFF := rfl
@[simp] theorem applyReset_csum : (State.applyReset s).csum = 0 := rfl
@[simp] theorem applyReset_tbuf : (State.applyReset s).tbuf = s.tbuf := rfl
@[simp] theorem applyReset_tlen : (State.applyReset s).tlen = 0 := rfl
@[simp] theorem applyReset_bbuf : (State.applyReset s).bbuf = s.bbuf := rfl
@[simp] theorem applyReset_bcount : (State.applyReset s).bcount = 0 := rfl
@[simp] theorem applyReset_cmdstat : (State.applyReset s).cmdstat = 0 := rfl
@[simp] theorem applyReset_resStatus : (State.applyReset s).resStatus = 0 := rfl
@[simp] theorem applyReset_resFaults : (State.applyReset s).resFaults = 0 := rfl
@[simp] theorem applyReset_resDev : (State.applyReset s).resDev = 0 := rfl
@[simp] theorem applyReset_resCmd : (State.applyReset s).resCmd = 0 := rfl
@[simp] theorem applyReset_resLen : (State.applyReset s).resLen = 0 := rfl
@[simp] theorem applyReset_resCsumGiven : (State.applyReset s).resCsumGiven = 0 := rfl
@[simp] theorem applyReset_resCsumCalc : (State.applyReset s).resCsumCalc = 0 := rfl
@[simp] theorem applyReset_resCrcGiven : (State.applyReset s).resCrcGiven = 0 := rfl
@[simp] theorem applyReset_resCrcCalc : (State.applyReset s).resCrcCalc = 0 := rfl
@[simp] theorem applyReset_resFlags : (State.applyReset s).resFlags = 0 := rfl
@[simp] theorem applyReset_pending : (State.applyReset s).pending = s.pending := rfl

/-! ### The text and the byte sequence

They depend on one buffer and one length each. -/

theorem text_congr {s t : State} (hb : s.tbuf = t.tbuf) (hn : s.tlen = t.tlen) : State.text s = State.text t := by
  simp only [State.text, hb, hn]

theorem bytes_congr {s t : State} (hb : s.bbuf = t.bbuf) (hn : s.bcount = t.bcount) : State.bytes s = State.bytes t := by
  simp only [State.bytes, hb, hn]

@[simp] theorem text_retire (op : Byte) (o : CmdOutcome) : State.text (State.retire op o s) = State.text s := rfl
@[simp] theorem bytes_retire (op : Byte) (o : CmdOutcome) : State.bytes (State.retire op o s) = State.bytes s := rfl
@[simp] theorem bytes_putText (l : List Byte) : State.bytes (State.putText l s) = State.bytes s := rfl
@[simp] theorem bytes_appendChar (c : Byte) : State.bytes (State.appendChar c s) = State.bytes s := rfl
@[simp] theorem text_putBytes (l : List Byte) : State.text (State.putBytes l s) = State.text s := rfl
@[simp] theorem text_clearResults (op : Byte) : State.text (State.clearResults op s) = State.text s := rfl
@[simp] theorem bytes_clearResults (op : Byte) : State.bytes (State.clearResults op s) = State.bytes s := rfl
@[simp] theorem text_raiseMalformedHex (op : Byte) (f : List FaultCode) : State.text (State.raiseMalformedHex op f s) = State.text s := rfl
@[simp] theorem text_raiseInvalidFrame (op : Byte) (f : List FaultCode) : State.text (State.raiseInvalidFrame op f s) = State.text s := rfl
@[simp] theorem bytes_raiseInvalidFrame (op : Byte) (f : List FaultCode) : State.bytes (State.raiseInvalidFrame op f s) = State.bytes s := rfl
@[simp] theorem text_populate (k : FrameCmd) (b : List Byte) : State.text (State.populate k b s) = State.text s := rfl
@[simp] theorem bytes_populate (k : FrameCmd) (b : List Byte) : State.bytes (State.populate k b s) = State.bytes s := rfl

end Sys2Proof.Machine
end

