-- ==== Sys2Proof/Laws/Frame.lean ====
section
/-!
SUPPORT. The laws of the frame validator's pure functions (43_frame.md R111-R114), and what a decode or frame command
can do, case by case.
-/
namespace Sys2Proof.Machine

/-! ### structCheck -/

section StructCheck

variable (b : List Byte)

theorem mem_tooShort : FaultCode.tooShort ∈ structCheck b ↔ b.length < 8 := by
  simp only [structCheck, List.mem_append]
  split <;> split <;> split <;> split <;> simp_all

theorem mem_badStart : FaultCode.badStart ∈ structCheck b ↔ b.length = 0 ∨ byteAt b 0 ≠ delim := by
  simp only [structCheck, List.mem_append]
  split <;> split <;> split <;> split <;> simp_all

theorem mem_badEnd : FaultCode.badEnd ∈ structCheck b ↔ b.length = 0 ∨ byteAt b (b.length - 1) ≠ delim := by
  simp only [structCheck, List.mem_append]
  split <;> split <;> split <;> split <;> simp_all

theorem mem_sizeMismatch : FaultCode.sizeMismatch ∈ structCheck b ↔ 8 ≤ b.length ∧ frameLen b + 8 ≠ b.length := by
  simp only [structCheck, List.mem_append]
  split <;> split <;> split <;> split <;> simp_all

theorem not_mem_hex : FaultCode.hexOdd ∉ structCheck b ∧ FaultCode.hexDigit ∉ structCheck b := by
  simp only [structCheck, List.mem_append]
  split <;> split <;> split <;> split <;> simp

theorem structCheck_eq_nil : structCheck b = [] ↔
    8 ≤ b.length ∧ byteAt b 0 = delim ∧ byteAt b (b.length - 1) = delim ∧ frameLen b + 8 = b.length := by
  simp only [structCheck, List.append_eq_nil_iff]
  constructor
  · rintro ⟨⟨⟨h1, h2⟩, h3⟩, h4⟩
    split at h1
    · simp at h1
    split at h2
    · simp at h2
    split at h3
    · simp at h3
    split at h4
    · simp at h4
    simp_all
  · rintro ⟨h1, h2, h3, h4⟩
    refine ⟨⟨⟨?_, ?_⟩, ?_⟩, ?_⟩ <;> rw [if_neg] <;> simp_all <;> (intro h; subst h; simp at h1)

end StructCheck

/-! ### What a frame command that does not fail rests on (43_frame.md R114) -/

/-- A frame command that does not fail has a readable header. -/
theorem length_of_not_fails {k : FrameCmd} {b : List Byte} (h : k.fails b (structCheck b) = false) : 8 ≤ b.length := by
  have h1 := mem_tooShort b
  cases k
  · simp [FrameCmd.fails] at h; have := h.1; rw [h1] at this; omega
  · simp [FrameCmd.fails] at h; have := h.1; rw [h1] at this; omega
  · simp [FrameCmd.fails] at h; exact ((structCheck_eq_nil b).mp h).1
  · simp [FrameCmd.fails] at h; have := h.1; rw [h1] at this; omega

theorem locatable_iff (b : List Byte) : locatable b = true ↔ 8 ≤ b.length ∧ frameLen b + 8 ≤ b.length := by
  simp [locatable]

theorem overruns_iff (b : List Byte) : overruns b = true ↔ 8 ≤ b.length ∧ b.length < frameLen b + 8 := by
  simp [overruns]

/-- A frame command that populates a payload and does not fail has a locatable sequence. -/
theorem locatable_of_not_fails {k : FrameCmd} {b : List Byte} (hk : k.populatesPayload = true)
    (h : k.fails b (structCheck b) = false) : locatable b = true := by
  have h8 := length_of_not_fails h
  rw [locatable_iff]
  refine ⟨h8, ?_⟩
  have ho := overruns_iff b
  cases k
  · simp [FrameCmd.populatesPayload] at hk
  · simp [FrameCmd.fails] at h
    have := h.2.2.2
    rw [← Bool.not_eq_true, ho] at this
    omega
  · simp [FrameCmd.fails] at h
    have := ((structCheck_eq_nil b).mp h).2.2.2
    omega
  · simp [FrameCmd.fails] at h
    have := h.2
    rw [← Bool.not_eq_true, ho] at this
    omega

/-! ### The common procedures, case by case -/

/-- Everything `frameOp` can do (43_frame.md R115). -/
theorem frameOp_cases (k : FrameCmd) (s : State) :
    (∃ f, hexDecode (State.text s) = .malformed f
        ∧ frameOp k s = State.raiseMalformedHex k.opcode f (State.clearResults k.opcode s))
      ∨ (∃ b, hexDecode (State.text s) = .ok b ∧ k.fails b (structCheck b) = true
        ∧ frameOp k s
          = State.raiseInvalidFrame k.opcode (structCheck b) (State.putBytes b (State.clearResults k.opcode s)))
      ∨ ∃ b, hexDecode (State.text s) = .ok b ∧ k.fails b (structCheck b) = false
        ∧ frameOp k s = State.populate k b (State.putBytes b (State.clearResults k.opcode s)) := by
  unfold frameOp
  cases h : hexDecode (State.text s) with
  | malformed f => exact .inl ⟨f, rfl, rfl⟩
  | ok b =>
    cases hf : k.fails b (structCheck b) with
    | true => exact .inr (.inl ⟨b, rfl, hf, by simp [hf]⟩)
    | false => exact .inr (.inr ⟨b, rfl, hf, by simp [hf]⟩)

/-- Everything HEX.DECODE can do before CMDSTAT is written (40_hexcodec.md R89). -/
theorem hexDecodeOp_cases (s : State) :
    (∃ f, hexDecode (State.text s) = .malformed f
        ∧ hexDecodeOp s = State.raiseMalformedHex Opc.hexDecode f (State.clearResults Opc.hexDecode s))
      ∨ ∃ b, hexDecode (State.text s) = .ok b
        ∧ hexDecodeOp s = { State.putBytes b (State.clearResults Opc.hexDecode s) with
            resStatus := resStatusWord Opc.hexDecode false false false .ok } := by
  unfold hexDecodeOp
  cases h : hexDecode (State.text s) with
  | malformed f => exact .inl ⟨f, rfl, rfl⟩
  | ok b => exact .inr ⟨b, rfl, rfl⟩

/-- The decoded bytes always fit the 16-bit BCOUNT. -/
theorem decoded_length_lt {s : State} {b : List Byte} (h : hexDecode (State.text s) = .ok b) : b.length < 65536 := by
  have h1 := hexDecode_length_le h
  have h2 := text_length_lt s
  omega

/-- The byte sequence after it was replaced. -/
theorem bytes_putBytes (s : State) (b : List Byte) (h : b.length < 65536) : State.bytes (State.putBytes b s) = b := by
  simp only [State.bytes, putBytes_bbuf, putBytes_bcount, BitVec.toNat_ofNat]
  rw [Nat.mod_eq_of_lt (by simpa using h), readSeq_writeSeq]

/-- The text after it was replaced. -/
theorem text_putText (s : State) (t : List Byte) (h : t.length < 65536) : State.text (State.putText t s) = t := by
  simp only [State.text, putText_tbuf, putText_tlen, BitVec.toNat_ofNat]
  rw [Nat.mod_eq_of_lt (by simpa using h), readSeq_writeSeq]

/-- The text after one character was appended. -/
theorem text_appendChar (s : State) (c : Byte) (h : s.tlen.toNat < 65535) :
    State.text (State.appendChar c s) = State.text s ++ [c] := by
  simp only [State.text, appendChar_tbuf, appendChar_tlen]
  rw [show (s.tlen + 1).toNat = s.tlen.toNat + 1 by bv_omega, readSeq_write_succ]

end Sys2Proof.Machine
end

