-- ==== Sys2Proof/Laws/Exec.lean ====
section
/-!
SUPPORT. What `exec` answers, one equation per command, and what no command touches.
-/
namespace Sys2Proof.Machine

variable (s : State)

@[simp] theorem exec_nop : exec .nop s = .next (State.retire Opc.nop .ok s) := rfl
@[simp] theorem exec_srst : exec .srst s = .next (State.retire Opc.srst .ok (State.applyReset s)) := rfl
@[simp] theorem exec_txtClear : exec .txtClear s = .next (State.retire Opc.txtClear .ok { s with tlen := 0 }) := rfl
theorem exec_txtPush_full (c : Byte) (h : s.tlen.toNat = s.cfg.textMax) :
    exec (.txtPush c) s = .next (State.raiseTextFull Opc.txtPush s) := by simp [exec, execTxtPush, h]
theorem exec_txtPush_room (c : Byte) (h : s.tlen.toNat ≠ s.cfg.textMax) :
    exec (.txtPush c) s = .next (State.retire Opc.txtPush .ok (State.appendChar c s)) := by simp [exec, execTxtPush, h]
@[simp] theorem exec_txtSanitize :
    exec .txtSanitize s = .next (State.retire Opc.txtSanitize .ok (State.putText (sanitize (State.text s)) s)) := rfl
@[simp] theorem exec_hexDecode : exec .hexDecode s = .next (State.retire Opc.hexDecode .ok (hexDecodeOp s)) := rfl
@[simp] theorem exec_csumClear : exec .csumClear s = .next (State.retire Opc.csumClear .ok { s with csum := 0 }) := rfl
@[simp] theorem exec_csumByte (b : Byte) :
    exec (.csumByte b) s = .next (State.retire Opc.csumByte .ok { s with csum := csumStep s.csum b }) := rfl
@[simp] theorem exec_crcInit (v : Half) :
    exec (.crcInit v) s = .next (State.retire Opc.crcInit .ok { s with crc := v }) := rfl
@[simp] theorem exec_crcByte (b : Byte) :
    exec (.crcByte b) s = .next (State.retire Opc.crcByte .ok { s with crc := crcStep s.crc b }) := rfl
@[simp] theorem exec_frmHeader : exec .frmHeader s = .next (State.retire Opc.frmHeader .ok (frameOp .header s)) := rfl
@[simp] theorem exec_frmPayload : exec .frmPayload s = .next (State.retire Opc.frmPayload .ok (frameOp .payload s)) := rfl
@[simp] theorem exec_frmValidate :
    exec .frmValidate s = .next (State.retire Opc.frmValidate .ok (frameOp .validate s)) := rfl
@[simp] theorem exec_frmFull : exec .frmFull s = .next (State.retire Opc.frmFull .ok (frameOp .full s)) := rfl

/-- Every command completes, from every state. -/
theorem exec_completes (i : Instr) : ∃ t, exec i s = .next t := by
  cases i with
  | txtPush c =>
    by_cases h : s.tlen.toNat = s.cfg.textMax
    · exact ⟨_, exec_txtPush_full s c h⟩
    · exact ⟨_, exec_txtPush_room s c h⟩
  | _ => exact ⟨_, rfl⟩

/-- What a decode or frame command leaves: everything but BBUF, BCOUNT, CMDSTAT and the result registers. -/
theorem frameOp_frame (k : FrameCmd) :
    (frameOp k s).cfg = s.cfg ∧ (frameOp k s).pending = s.pending ∧ (frameOp k s).crc = s.crc
      ∧ (frameOp k s).csum = s.csum ∧ (frameOp k s).tbuf = s.tbuf ∧ (frameOp k s).tlen = s.tlen := by
  obtain ⟨f, -, h⟩ | ⟨b, -, -, h⟩ | ⟨b, -, -, h⟩ := frameOp_cases k s <;> rw [h] <;> simp

theorem hexDecodeOp_frame :
    (hexDecodeOp s).cfg = s.cfg ∧ (hexDecodeOp s).pending = s.pending ∧ (hexDecodeOp s).crc = s.crc
      ∧ (hexDecodeOp s).csum = s.csum ∧ (hexDecodeOp s).tbuf = s.tbuf ∧ (hexDecodeOp s).tlen = s.tlen := by
  obtain ⟨f, -, h⟩ | ⟨b, -, h⟩ := hexDecodeOp_cases s <;> rw [h] <;> simp

end Sys2Proof.Machine
end

