-- ==== Sys2Proof/Laws/Flags.lean ====
section
/-!
SUPPORT. The status words read back field by field, with their reserved bits 0.
-/
namespace Sys2Proof.Machine

@[simp] theorem getLsbD_bitAt (v : Bool) (k i : Nat) (hi : i < 16) :
    (bitAt v k).getLsbD i = (decide (i = k) && v) := by
  simp only [bitAt, BitVec.getLsbD_shiftLeft, BitVec.getLsbD_setWidth, BitVec.getLsbD_ofBool]
  by_cases h : i = k
  · subst h; simp [hi]
  · by_cases h2 : i < k
    · simp [h, h2]
    · simp [h, show ¬ (i - k = 0) by omega]

theorem getLsbD_zext8 (op : Byte) (i : Nat) (hi : i < 16) :
    (zext16 op <<< 8).getLsbD i = (decide (8 ≤ i) && op.getLsbD (i - 8)) := by
  simp only [BitVec.getLsbD_shiftLeft, BitVec.getLsbD_setWidth]
  by_cases h : i < 8
  · simp [h, show ¬ (8 ≤ i) by omega]
  · simp [h, hi, show 8 ≤ i by omega, show i - 8 < 16 by omega]

theorem getLsbD_code (k : BitVec 2) (i : Nat) (hi : i < 16) :
    (k.setWidth 16 : Half).getLsbD i = k.getLsbD i := by
  simp [hi]

/-! ### CMDSTAT -/

theorem getLsbD_cmdstatWord (op : Byte) (o : CmdOutcome) (i : Nat) (hi : i < 16) :
    (cmdstatWord op o).getLsbD i = ((decide (8 ≤ i) && op.getLsbD (i - 8)) || o.code.getLsbD i) := by
  rw [cmdstatWord, BitVec.getLsbD_or, getLsbD_zext8 _ _ hi, getLsbD_code _ _ hi]

@[simp] theorem cmdOutcomeField_word (op : Byte) (o : CmdOutcome) : cmdOutcomeField (cmdstatWord op o) = o.code := by
  apply BitVec.eq_of_getLsbD_eq
  intro i hi
  rw [cmdOutcomeField, BitVec.getLsbD_extractLsb', getLsbD_cmdstatWord _ _ _ (by omega)]
  simp [hi, show ¬ (8 ≤ i) by omega]

@[simp] theorem lastOpField_word (op : Byte) (o : CmdOutcome) : lastOpField (cmdstatWord op o) = op := by
  apply BitVec.eq_of_getLsbD_eq
  intro i hi
  rw [lastOpField, BitVec.getLsbD_extractLsb', getLsbD_cmdstatWord _ _ _ (by omega)]
  simp [hi, BitVec.getLsbD_of_ge o.code (8 + i) (by omega)]

theorem cmdstatWord_reserved (op : Byte) (o : CmdOutcome) : cmdstatWord op o &&& 0x00FC#16 = 0 := by
  apply BitVec.eq_of_getLsbD_eq
  intro i hi
  rw [BitVec.getLsbD_and, getLsbD_cmdstatWord _ _ _ hi]
  by_cases h : 8 ≤ i
  · interval_cases i <;> simp
  · by_cases h2 : 2 ≤ i
    · simp [h, BitVec.getLsbD_of_ge o.code i h2]
    · interval_cases i <;> simp

/-! ### RES_STATUS -/

section ResStatus

variable (op : Byte) (n p h : Bool) (o : ResOutcome)

theorem getLsbD_resStatusWord (i : Nat) (hi : i < 16) :
    (resStatusWord op n p h o).getLsbD i
      = ((decide (8 ≤ i) && op.getLsbD (i - 8)) || (decide (i = 4) && n) || (decide (i = 3) && p)
          || (decide (i = 2) && h) || o.code.getLsbD i) := by
  simp only [resStatusWord, BitVec.getLsbD_or, getLsbD_zext8 _ _ hi, getLsbD_code _ _ hi, getLsbD_bitAt _ _ _ hi]

@[simp] theorem resOutcomeField_word : resOutcomeField (resStatusWord op n p h o) = o.code := by
  apply BitVec.eq_of_getLsbD_eq
  intro i hi
  rw [resOutcomeField, BitVec.getLsbD_extractLsb', getLsbD_resStatusWord _ _ _ _ _ _ (by omega)]
  simp [hi, show ¬ (8 ≤ i) by omega, show ¬ (i = 4) by omega, show ¬ (i = 3) by omega, show ¬ (i = 2) by omega]

@[simp] theorem hdrVField_word : hdrVField (resStatusWord op n p h o) = h := by
  rw [hdrVField, getLsbD_resStatusWord _ _ _ _ _ _ (by omega)]
  simp

@[simp] theorem payVField_word : payVField (resStatusWord op n p h o) = p := by
  rw [payVField, getLsbD_resStatusWord _ _ _ _ _ _ (by omega)]
  simp

@[simp] theorem intVField_word : intVField (resStatusWord op n p h o) = n := by
  rw [intVField, getLsbD_resStatusWord _ _ _ _ _ _ (by omega)]
  simp

@[simp] theorem resOpField_word : resOpField (resStatusWord op n p h o) = op := by
  apply BitVec.eq_of_getLsbD_eq
  intro i hi
  rw [resOpField, BitVec.getLsbD_extractLsb', getLsbD_resStatusWord _ _ _ _ _ _ (by omega)]
  simp [hi, BitVec.getLsbD_of_ge o.code (8 + i) (by omega), show ¬ (8 + i = 4) by omega, show ¬ (8 + i = 3) by omega,
    show ¬ (8 + i = 2) by omega]

/-- RES_STATUS of a command that fails, as 60_exceptions.md R143 and R144 write it. -/
theorem resStatusWord_bare : resStatusWord op false false false o = (zext16 op <<< 8) ||| o.code.setWidth 16 := by
  simp [resStatusWord, bitAt]

end ResStatus

/-! ### RES_FAULTS -/

/-- Each fault code is exactly one bit of RES_FAULTS. -/
@[simp] theorem getLsbD_faultBits (f : List FaultCode) (c : FaultCode) :
    (faultBits f).getLsbD c.bit = decide (c ∈ f) := by
  cases c <;> simp [faultBits, faultBit, FaultCode.bit, -BitVec.getLsbD_eq_getElem]

theorem faultBits_reserved (f : List FaultCode) : faultBits f &&& 0xFFC0#16 = 0 := by
  simp only [faultBits, faultBit]
  generalize decide (FaultCode.hexOdd ∈ f) = a
  generalize decide (FaultCode.hexDigit ∈ f) = b
  generalize decide (FaultCode.tooShort ∈ f) = c
  generalize decide (FaultCode.badStart ∈ f) = d
  generalize decide (FaultCode.badEnd ∈ f) = e
  generalize decide (FaultCode.sizeMismatch ∈ f) = g
  revert a b c d e g
  decide

/-- The error list read from RES_FAULTS holds the recorded codes, in the fixed order. -/
theorem errorList_faultBits (f : List FaultCode) :
    errorList (faultBits f) = FaultCode.all.filter (fun c => decide (c ∈ f)) := by
  simp only [errorList, getLsbD_faultBits]

/-- RES_FAULTS depends only on which codes are recorded. -/
theorem faultBits_congr {f g : List FaultCode} (h : ∀ c, c ∈ f ↔ c ∈ g) : faultBits f = faultBits g := by
  simp only [faultBits, faultBit, h]

@[simp] theorem faultBits_nil : faultBits [] = 0 := by decide

theorem faultBits_eq_zero (f : List FaultCode) : faultBits f = 0 ↔ f = [] := by
  constructor
  · intro h
    cases f with
    | nil => rfl
    | cons c rest =>
      have h1 := getLsbD_faultBits (c :: rest) c
      rw [h] at h1
      simp at h1
  · rintro rfl
    exact faultBits_nil

/-! ### RES_FLAGS -/

@[simp] theorem csumValidField_word (r c : Bool) : csumValidField (flagsWord r c) = c := by
  cases r <;> cases c <;> decide

@[simp] theorem crcValidField_word (r c : Bool) : crcValidField (flagsWord r c) = r := by
  cases r <;> cases c <;> decide

end Sys2Proof.Machine
end

