-- ==== Sys2Proof/Laws/Integrity.lean ====
section
/-!
SUPPORT. The laws of the checksum (41_checksum.md R95-R99) and of the CRC (42_crc.md R100-R104).
-/
namespace Sys2Proof.Machine

/-! ### Checksum -/

theorem foldl_csumStep (z : Byte) (bs : List Byte) : bs.foldl csumStep z = z + checksum bs := by
  induction bs generalizing z with
  | nil => simp [checksum]
  | cons b bs ih =>
    simp only [checksum, List.foldl_cons]
    rw [ih, ih (csumStep 0 b)]
    simp [csumStep, BitVec.add_assoc]

@[simp] theorem checksum_nil : checksum [] = 0 := rfl

theorem checksum_cons (b : Byte) (bs : List Byte) : checksum (b :: bs) = b + checksum bs := by
  simp only [checksum, List.foldl_cons, csumStep]
  rw [foldl_csumStep]
  simp [checksum]

/-- A stream may be split anywhere (41_checksum.md R99). -/
theorem checksum_append (as bs : List Byte) : checksum (as ++ bs) = checksum as + checksum bs := by
  simp only [checksum, List.foldl_append]
  exact foldl_csumStep _ _

/-! ### CRC -/

@[simp] theorem crc16_nil (c : Half) : crc16 [] c = c := rfl

theorem crc16_cons (b : Byte) (bs : List Byte) (c : Half) : crc16 (b :: bs) c = crc16 bs (crcStep c b) := rfl

/-- A byte range may be fed across any number of commands (42_crc.md R104). -/
theorem crc16_append (as bs : List Byte) (c : Half) : crc16 (as ++ bs) c = crc16 bs (crc16 as c) := by
  simp [crc16, List.foldl_append]

/-- One iteration is linear over GF(2). -/
theorem crcShift_xor (a b : Half) : crcShift (a ^^^ b) = crcShift a ^^^ crcShift b := by
  simp only [crcShift, BitVec.getLsbD_xor, BitVec.shiftLeft_xor_distrib]
  cases a.getLsbD 15 <;> cases b.getLsbD 15 <;> simp
  · rw [BitVec.xor_assoc]
  · rw [BitVec.xor_assoc, BitVec.xor_comm (b <<< 1), ← BitVec.xor_assoc]
  · rw [BitVec.xor_comm (b <<< 1) poly, BitVec.xor_assoc, ← BitVec.xor_assoc poly, BitVec.xor_self, BitVec.zero_xor]

/-- Any number of iterations is linear over GF(2) (42_crc.md R104). -/
theorem crcShifts_xor (n : Nat) (a b : Half) : crcShifts n (a ^^^ b) = crcShifts n a ^^^ crcShifts n b := by
  induction n generalizing a b with
  | zero => rfl
  | succ n ih => simp only [crcShifts, crcShift_xor, ih]

end Sys2Proof.Machine
end

