-- ==== Sys2Proof/Laws/Run.lean ====
section
/-!
SUPPORT. One step, and runs of steps, in terms of the host's events.
-/
namespace Sys2Proof.Machine

/-- With a word waiting, a step is that word's `runWord` with the event taken. -/
theorem step_command {s : State} {w : Word} {rest : List HostEvent} (h : s.pending = .command w :: rest) :
    step s = runWord w { s with pending := rest } := by
  simp only [step, takeEvent, h, runEvent]

/-- A word that decodes is executed. -/
theorem runWord_legal {w : Word} {i : Instr} (h : decode w = .legal i) (s : State) : runWord w s = exec i s := by
  simp only [runWord, h]

/-- A word that does not decode raises IllegalCommand. -/
theorem runWord_illegal {w : Word} {op : Byte} (h : decode w = .illegal op) (s : State) :
    runWord w s = .next (State.raiseIllegal op s) := by
  simp only [runWord, h]

@[simp] theorem run_zero (s : State) : core.run 0 s = .next s := rfl

/-- A run goes through its first step. -/
theorem run_succ {s t : State} (n : Nat) (h : step s = .next t) : core.run (n + 1) s = core.run n t := by
  simp only [Host.Core.run]
  rw [show core.step s = .next t from h]

/-- Everything one event of the host can lead to: a command executed, IllegalCommand, reset, or nothing waiting. -/
theorem step_cases {s t : State} (h : step s = .next t) :
    (s.pending = [] ∧ t = s)
      ∨ ∃ rest, (∃ x, s.pending = .reset x :: rest ∧ t = State.applyReset { s with pending := rest })
        ∨ (∃ w op, s.pending = .command w :: rest ∧ decode w = .illegal op
            ∧ t = State.raiseIllegal op { s with pending := rest })
        ∨ ∃ w i, s.pending = .command w :: rest ∧ decode w = .legal i ∧ exec i { s with pending := rest } = .next t := by
  simp only [step, takeEvent] at h
  split at h
  · next hp => exact .inl ⟨hp, (Host.Outcome.next.inj h).symm⟩
  · next e rest hp =>
    refine .inr ⟨rest, ?_⟩
    cases e with
    | reset x => exact .inl ⟨x, hp, (Host.Outcome.next.inj h).symm⟩
    | command w =>
      cases hd : decode w with
      | illegal op =>
        rw [runEvent, runWord_illegal hd] at h
        exact .inr (.inl ⟨w, op, hp, hd, (Host.Outcome.next.inj h).symm⟩)
      | legal i =>
        rw [runEvent, runWord_legal hd] at h
        exact .inr (.inr ⟨w, i, hp, hd, h⟩)

end Sys2Proof.Machine
end

