-- ==== Sys2Proof/Tests/Slice0.lean ====
section
/-!
SUPPORT. The model's own tests: expected values are the spec's (30_encoding.md R62, R69; 95_test_vectors.md, whose ids
stand in the comments). Then, for every statement with hypotheses, a witness that meets them.
-/
namespace Sys2Proof.Tests

open Sys2Proof Sys2Proof.Machine

/-! ### Helpers -/

/-- A state with the given text in TBUF and everything else as after reset. -/
def loaded (t : List Byte) : State := State.putText t State.reset

/-- The state a command answers. -/
def after (i : Instr) (s : State) : Option State :=
  match exec i s with
  | .next t => some t
  | .fault _ => none
  | .refused _ => none

/-- A view of the state a command answers. -/
def view {α : Type} (i : Instr) (s : State) (f : State → α) : Option α := (after i s).map f

/-- The smallest legal block with a full text buffer. -/
def fullState : State := { State.reset with cfg := { textMax := 526 }, tlen := 526 }

/-- `7E 01 10 02 1A 2B 58 12 34 7E`, the source's canonical example (F1), written without spaces. -/
def textF1 : List Byte :=
  [0x37, 0x45, 0x30, 0x31, 0x31, 0x30, 0x30, 0x32, 0x31, 0x41, 0x32, 0x42, 0x35, 0x38, 0x31, 0x32, 0x33, 0x34, 0x37, 0x45]

/-- `7E 01 10 01 1A 2B 58 12 34 7E`: extra bytes (F11). -/
def textF11 : List Byte := textF1.set 7 0x31

/-- `7E 01 10 05 1A 2B 58 12 34 7E`: overrun (F10). -/
def textF10 : List Byte := textF1.set 7 0x35

/-- `7F 01 10 02 1A 2B 58 12 34 7E`: bad start (F8). -/
def textF8 : List Byte := textF1.set 1 0x46

/-- `7E 05 20 00 25 21 8A 7E`: a length-0 frame with correct integrity fields (F3), written `|` between two pairs. -/
def textF3 : List Byte :=
  [0x37, 0x45, 0x30, 0x35, 0x32, 0x30, 0x30, 0x30, 0x7C, 0x32, 0x35, 0x32, 0x31, 0x38, 0x41, 0x37, 0x45]

/-! ### WellFormed: the words it refuses (30_encoding.md R61, R63, R64) -/

theorem test_legal_refuses_unassigned_opcode : legal 0x00000044#32 = false := by decide
theorem test_legal_refuses_none_with_b8 : legal 0x00000100#32 = false := by decide
theorem test_legal_refuses_none_with_imm16 : legal 0x00010000#32 = false := by decide
theorem test_legal_refuses_b8_with_imm16 : legal 0x00AB0031#32 = false := by decide
theorem test_legal_refuses_imm16_with_b8 : legal 0x0000AB30#32 = false := by decide
theorem test_legal_takes_a_word_of_each_class :
    legal 0x00000043#32 = true ∧ legal 0x0000FF21#32 = true ∧ legal 0x12340030#32 = true := by decide

/-! ### Decode: every constructor's word, written out from 30_encoding.md R62 -/

theorem test_decode_nop : decode 0x00000000#32 = .legal .nop := by decide
theorem test_decode_srst : decode 0x00000001#32 = .legal .srst := by decide
theorem test_decode_txtClear : decode 0x00000010#32 = .legal .txtClear := by decide
theorem test_decode_txtPush : decode 0x00003711#32 = .legal (.txtPush 0x37) := by decide
theorem test_decode_txtSanitize : decode 0x00000012#32 = .legal .txtSanitize := by decide
theorem test_decode_hexDecode : decode 0x00000013#32 = .legal .hexDecode := by decide
theorem test_decode_csumClear : decode 0x00000020#32 = .legal .csumClear := by decide
theorem test_decode_csumByte : decode 0x0000FF21#32 = .legal (.csumByte 0xFF) := by decide
theorem test_decode_crcInit : decode 0x12340030#32 = .legal (.crcInit 0x1234) := by decide
theorem test_decode_crcByte : decode 0x00000131#32 = .legal (.crcByte 0x01) := by decide
theorem test_decode_frmHeader : decode 0x00000040#32 = .legal .frmHeader := by decide
theorem test_decode_frmPayload : decode 0x00000041#32 = .legal .frmPayload := by decide
theorem test_decode_frmValidate : decode 0x00000042#32 = .legal .frmValidate := by decide
theorem test_decode_frmFull : decode 0x00000043#32 = .legal .frmFull := by decide

/-- E2, E3, E6, E7, E8. -/
theorem test_decode_refuses :
    decode 0x00000100#32 = .illegal 0x00 ∧ decode 0x00010000#32 = .illegal 0x00 ∧ decode 0x00000044#32 = .illegal 0x44
      ∧ decode 0x00AB0031#32 = .illegal 0x31 ∧ decode 0x0000AB30#32 = .illegal 0x30 := by decide

theorem test_decodeTableWord :
    decodeTableWord 32 0x12340030 = some (.crcInit 0x1234) ∧ decodeTableWord 8 0x42 = some .frmValidate
      ∧ decodeTableWord 32 0x44 = none := by decide

/-! ### Commands -/

/-- 44_control.md R130: after an illegal word NOP sets OUTCOME back to OK. -/
theorem test_nop : view .nop { State.reset with cmdstat := 0x4401 } State.cmdstat = some 0x0000 := by decide

/-- 44_control.md R131. -/
theorem test_srst :
    view .srst { State.reset with crc := 0x29B1, tlen := 30, resStatus := 0x421D }
      (fun t => (t.crc, t.tlen, t.resStatus, t.cmdstat)) = some (0xFFFF, 0, 0, 0x0100) := by decide

theorem test_txtClear : view .txtClear (loaded textF1) (fun t => (t.tlen, t.cmdstat)) = some (0, 0x1000) := by decide

/-- 95_test_vectors.md 2.1: from reset, `TXT.PUSH 0x37`. -/
theorem test_txtPush :
    view (.txtPush 0x37) State.reset (fun t => (t.tlen, readPort t 0x8000, t.cmdstat)) = some (1, 0x0037, 0x1100) := by
  decide

theorem test_txtPush_full :
    view (.txtPush 0x30) fullState (fun t => (t.tlen, t.tbuf, t.cmdstat)) = some (526, [], 0x1102) := by decide

/-- `0x7E|0x01` becomes `7E01`. -/
theorem test_txtSanitize :
    view .txtSanitize (loaded [0x30, 0x78, 0x37, 0x45, 0x7C, 0x30, 0x78, 0x30, 0x31])
      (fun t => (State.text t, t.tlen, t.cmdstat)) = some ([0x37, 0x45, 0x30, 0x31], 4, 0x1200) := by decide

/-- `00xx` becomes `0x`, which is not stable. -/
theorem test_txtSanitize_twice :
    sanitize [0x30, 0x30, 0x78, 0x78] = [0x30, 0x78] ∧ sanitize [0x30, 0x78] = [] := by decide

/-- H3: `0x7E|0X01 10<tab>0x`. -/
theorem test_hexDecode :
    view .hexDecode
      (loaded [0x30, 0x78, 0x37, 0x45, 0x7C, 0x30, 0x58, 0x30, 0x31, 0x20, 0x31, 0x30, 0x09, 0x30, 0x78])
      (fun t => (State.bytes t, t.resFaults, t.resStatus, t.cmdstat))
      = some ([0x7E, 0x01, 0x10], 0x0000, 0x1301, 0x1300) := by decide

/-- H11: `7G1` has both hex faults. -/
theorem test_hexDecode_malformed :
    view .hexDecode (loaded [0x37, 0x47, 0x31]) (fun t => (t.bcount, t.resFaults, t.resStatus))
      = some (0, 0x0003, 0x1302) := by decide

theorem test_csumClear :
    view .csumClear { State.reset with csum := 0xDD } (fun t => (t.csum, t.cmdstat)) = some (0x00, 0x2000) := by decide

/-- 41_checksum.md R98. -/
theorem test_csumByte :
    view (.csumByte 0xF0) { State.reset with csum := 0x11 } (fun t => (t.csum, t.cmdstat)) = some (0x01, 0x2100) := by
  decide

/-- E9. -/
theorem test_crcInit :
    view (.crcInit 0x1234) State.reset (fun t => (t.crc, t.cmdstat)) = some (0x1234, 0x3000) := by decide

/-- 42_crc.md R103. -/
theorem test_crcByte :
    view (.crcByte 0x01) State.reset (fun t => (t.crc, t.cmdstat)) = some (0xF1D1, 0x3100) := by decide

/-- 95_test_vectors.md 2.3, single steps. -/
theorem test_crcStep :
    crcStep 0xFFFF 0x7E = 0x7EA9 ∧ crcStep 0x0000 0xFF = 0x1EF0 ∧ crcStep 0x8000 0x00 = 0x9188
      ∧ crcStep 0x0001 0x00 = 0x0100 ∧ crcStep 0x1234 0x56 = 0x3C40 := by decide +kernel

/-- K3. -/
theorem test_crc16_check_value :
    crc16 [0x31, 0x32, 0x33, 0x34, 0x35, 0x36, 0x37, 0x38, 0x39] 0xFFFF = 0x29B1 := by decide +kernel

/-- F10: the header is reported although the length overruns. -/
theorem test_frmHeader :
    view .frmHeader (loaded textF10) (fun t => (t.bcount, t.resFaults, t.resStatus, t.resDev, t.resCmd, t.resLen))
      = some (10, 0x0020, 0x4005, 0x01, 0x10, 0x05) := by decide +kernel

/-- F8. -/
theorem test_frmHeader_bad_start :
    view .frmHeader (loaded textF8) (fun t => (t.bcount, t.resFaults, t.resStatus, t.resDev))
      = some (10, 0x0008, 0x4003, 0x00) := by decide +kernel

/-- F11: extra bytes are recorded, not failed. -/
theorem test_frmPayload :
    view .frmPayload (loaded textF11) (fun t => (t.resFaults, t.resStatus, State.payload t))
      = some (0x0020, 0x410D, [0x1A]) := by decide +kernel

/-- F10. -/
theorem test_frmPayload_overrun :
    view .frmPayload (loaded textF10) (fun t => (t.resFaults, t.resStatus, t.resLen)) = some (0x0020, 0x4103, 0) := by
  decide +kernel

/-- F1, W3. -/
theorem test_frmValidate :
    view .frmValidate (loaded textF1)
      (fun t => (t.resStatus, t.resCsumGiven, t.resCsumCalc, t.resCrcGiven, t.resCrcCalc, t.resFlags))
      = some (0x421D, 0x58, 0x58, 0x1234, 0xB72B, 0x1) := by decide +kernel

/-- F4: an empty text. -/
theorem test_frmValidate_empty :
    view .frmValidate State.reset (fun t => (t.bcount, t.resFaults, t.resStatus, t.cmdstat))
      = some (0, 0x001C, 0x4203, 0x4200) := by decide +kernel

/-- F8: populated in full with BAD_START recorded. -/
theorem test_frmFull :
    view .frmFull (loaded textF8) (fun t => (t.resStatus, t.resFaults, t.resDev, t.resCrcCalc, t.resFlags))
      = some (0x431D, 0x0008, 0x01, 0xB72B, 0x1) := by decide +kernel

/-- F11: the integrity fields stand at the layout's offsets, not at the end. -/
theorem test_frmFull_extra_bytes :
    view .frmFull (loaded textF11)
      (fun t => (t.resStatus, t.resCsumGiven, t.resCsumCalc, t.resCrcGiven, t.resCrcCalc, t.resFlags))
      = some (0x431D, 0x2B, 0x2C, 0x5812, 0x315D, 0x0) := by decide +kernel

/-- The step takes a word given as a table row. -/
theorem test_step_withFetchWord :
    step (State.reset.withFetchWord 32 0x12340030) = exec (.crcInit 0x1234) State.reset := rfl

/-! ### Assembly (30_encoding.md R69, R70) -/

/-- `CRC.INIT 0xFFFF`, `TXT.PUSH '7'` and `frm.full ; comment`. -/
theorem test_assemble :
    assembleLine ['C', 'R', 'C', '.', 'I', 'N', 'I', 'T', ' ', '0', 'x', 'F', 'F', 'F', 'F'] = .ok [0xFFFF0030#32]
      ∧ assembleLine ['T', 'X', 'T', '.', 'P', 'U', 'S', 'H', ' ', singleQuote, '7', singleQuote] = .ok [0x00003711#32]
      ∧ assembleLine ['f', 'r', 'm', '.', 'f', 'u', 'l', 'l', ' ', ';', ' ', 'x'] = .ok [0x00000043#32] := by
  decide +kernel

/-- `CRC.BYTES 1, 0x02`; an operand out of range. -/
theorem test_assemble_pseudo :
    assembleLine ['C', 'R', 'C', '.', 'B', 'Y', 'T', 'E', 'S', ' ', '1', ',', ' ', '0', 'x', '0', '2']
        = .ok [0x00000131#32, 0x00000231#32]
      ∧ assembleLine ['C', 'S', 'U', 'M', '.', 'B', 'Y', 'T', 'E', ' ', '2', '5', '6'] = .error .operandRange := by
  decide +kernel

/-- No escapes (log entry 9): three single quotes are the character 0x27; a second double quote closes the string. -/
theorem test_assemble_quotes :
    lex .idle [singleQuote, singleQuote, singleQuote] = .ok [.chr singleQuote]
      ∧ lex .idle [doubleQuote, 'a', doubleQuote, doubleQuote] = .error .badLine := by decide +kernel

/-! ### Witnesses: states and operands that meet the statements' hypotheses -/

/-- A reset state with events waiting. -/
def waiting (es : List HostEvent) : State := { State.reset with pending := es }

theorem witness_DecodeAndEncodeAgree : 0xBEEF0030#32 = encode (.crcInit 0xBEEF) := by decide

/-- Two words each row accepts at both ends of its operand, so no clause about rows is empty. -/
theorem witness_DecodeTakesExactlyTheLegalWords :
    (⟨"CRC.INIT", 0x30, .imm16⟩ : OpcodeRow) ∈ opcodeRows
      ∧ (⟨"CRC.INIT", 0x30, .imm16⟩ : OpcodeRow).accepts 0x00000030#32 = true
      ∧ (⟨"CRC.INIT", 0x30, .imm16⟩ : OpcodeRow).accepts 0xFFFF0030#32 = true := by decide

theorem witness_IllegalWordChangesOnlyCmdstat :
    ¬ Spec.legalByClass 0x000000FF#32 ∧ ¬ Spec.legalByClass 0x00000100#32 ∧ ¬ Spec.legalByClass 0x80000011#32 := by
  unfold Spec.legalByClass; decide

theorem witness_StepRunsTheDecodedCommand :
    (waiting [.command 0x00000043#32]).pending = .command 0x00000043#32 :: []
      ∧ decode 0x00000043#32 = .legal .frmFull := by decide

theorem witness_StepTakesTheOldestEvent :
    ((waiting [.command 0x44#32, .reset none]).pending = .command 0x44#32 :: [.reset none]
        ∧ ¬ Spec.legalByClass 0x44#32)
      ∧ (waiting [.reset (some 0x43#32)]).pending = .reset (some 0x43#32) :: []
      ∧ (waiting []).pending = [] := by
  unfold Spec.legalByClass; decide

theorem witness_CmdstatRecordsEveryWord :
    runWord 0x00003711#32 State.reset = .next (State.retire 0x11 .ok (State.appendChar 0x37 State.reset))
      ∧ runWord 0x00003011#32 fullState = .next { fullState with cmdstat := 0x1102 }
      ∧ runWord 0x000000FF#32 State.reset = .next { State.reset with cmdstat := 0xFF01 } := ⟨rfl, rfl, rfl⟩

theorem witness_NopChangesOnlyCmdstat :
    (0xFFFFFF00#32).extractLsb' 0 8 = 0 ∧ 0xFFFFFF00#32 ≠ 0 := by decide

theorem witness_SrstAppliesTheResetValues : 0x4000 ≤ (0x4000#16).toNat ∧ 0x4000 ≤ (0xFFFF#16).toNat := by decide

theorem witness_TxtPushAppendsOrIsFull :
    fullState.tlen.toNat = fullState.cfg.textMax ∧ State.reset.tlen.toNat ≠ State.reset.cfg.textMax := by decide

/-- Room for one character, in the smallest and in the largest legal block. -/
theorem witness_TxtPushExtendsTheText :
    ({ fullState with tlen := 525 } : State).cfg.legal ∧ (525#16).toNat < fullState.cfg.textMax
      ∧ Config.legal { textMax := 32768 } ∧ (32767#16).toNat < 32768 := by decide

theorem witness_FullBufferDropsEveryPush :
    fullState.tlen.toNat = fullState.cfg.textMax ∧ fullState.cfg.legal := by decide

/-- Each way to make room, on a full buffer of separators for TXT.SANITIZE. -/
theorem witness_FullBufferDropsEveryPush_room :
    exec .txtClear fullState = .next { fullState with tlen := 0, cmdstat := 0x1000 }
      ∧ exec .srst fullState = .next { State.applyReset fullState with cmdstat := 0x0100 }
      ∧ runEvent (.reset none) fullState = .next (State.applyReset fullState) := ⟨rfl, rfl, rfl⟩

/-- A full buffer whose first character is a tab, which sanitizing removes. -/
theorem witness_FullBufferDropsEveryPush_sanitize :
    (sanitize (State.text { fullState with tbuf := [(0, 0x09)] })).length < fullState.tlen.toNat := by decide +kernel

theorem witness_TxtSanitizeReplacesTheText :
    sanitize (sanitize (State.text (loaded [0x30, 0x30, 0x78, 0x78]))) ≠ sanitize (State.text (loaded [0x30, 0x30, 0x78, 0x78]))
      ∧ hexDecode (State.text (loaded textF3)) = .ok [0x7E, 0x05, 0x20, 0x00, 0x25, 0x21, 0x8A, 0x7E] := by decide +kernel

theorem witness_CharacterClassesAreTheSpecs :
    isSep 0x7C = true ∧ isSep 0x0E = false ∧ isHexDigit 0x66 = true ∧ isHexDigit 0x67 = false ∧ isHexDigit 0x2F = false
      ∧ hexVal 0x39 = 9 ∧ hexVal 0x46 = 15 ∧ hexVal 0x61 = 10 := by decide

theorem witness_SanitizeRemovesSeparatorsAndPairs :
    ∀ c ∈ [0x37#8, 0x45#8], isSep c = false ∧ c ≠ 0x78 ∧ c ≠ 0x58 := by decide

theorem witness_HexDecodeGivesBytesOrItsFaults :
    ((sanitize [0x37, 0x20, 0x45]).length % 2 = 0 ∧ ∀ c ∈ sanitize [0x37, 0x20, 0x45], isHexDigit c = true)
      ∧ ¬ ((sanitize [0x37]).length % 2 = 0 ∧ ∀ c ∈ sanitize [0x37], isHexDigit c = true)
      ∧ ¬ ((sanitize [0x37, 0x47]).length % 2 = 0 ∧ ∀ c ∈ sanitize [0x37, 0x47], isHexDigit c = true) := by decide

theorem witness_SanitizedTextDecodesAlike : hexDecode [0x37, 0x45, 0x20] = .ok [0x7E] := by decide

theorem witness_HexSpellingDecodesToItsBytes : HexTextOf [0x7C, 0x37, 0x65, 0x20, 0x30, 0x31] [0x7E, 0x01] :=
  .sep 0x7C _ _ (by decide) (.pair 0x37 0x65 _ _ (by decide) (by decide)
    (.sep 0x20 _ _ (by decide) (.pair 0x30 0x31 _ _ (by decide) (by decide) .nil)))

theorem witness_HexDecodeCommandFillsBbuf :
    hexDecode (State.text (loaded [0x37, 0x45])) = .ok [0x7E]
      ∧ (loaded [0x37, 0x45]).tlen.toNat ≤ (loaded [0x37, 0x45]).cfg.textMax
      ∧ hexDecode (State.text (loaded [0x37])) = .malformed [.hexOdd] := by decide

theorem witness_DecodedBytesFitBbuf :
    (loaded textF1).tlen.toNat ≤ (loaded textF1).cfg.textMax
      ∧ hexDecode (State.text (loaded textF1)) = .ok [0x7E, 0x01, 0x10, 0x02, 0x1A, 0x2B, 0x58, 0x12, 0x34, 0x7E] := by
  decide +kernel

theorem witness_ChecksumIsTheSumModulo256 : [0x01#8, 0x02#8, 0x03#8].Perm [0x03#8, 0x02#8, 0x01#8] := by decide

/-- Two words in order, with an event after them. -/
theorem witness_RunExecutesTheWordsInOrder :
    (waiting [.command 0x00000020#32, .command 0x0000FF21#32, .reset none]).pending
      = [0x00000020#32, 0x0000FF21#32].map .command ++ [.reset none] := by decide

theorem witness_SavedCrcStreamResumesExactly :
    ({ State.reset with crc := 0xF1D1 } : State).crc = crc16 [0x01] 0xFFFF := by decide +kernel

theorem witness_ErrorListIsTheCheckOrder :
    hexDecode [0x37, 0x47, 0x31] = .malformed [.hexOdd, .hexDigit] ∧ 0x003F#16 &&& 0xFFC0#16 = 0 := by decide

/-- A length-0 frame and the longest one. -/
theorem witness_IntegrityReadsTheLayoutOffsets :
    ([] : List Byte).length = (0x00#8).toNat ∧ (List.replicate 255 0x00#8).length = (0xFF#8).toNat
      ∧ [0x7E#8] ≠ [] := by decide +kernel

/-- A text for each clause of the four frame statements: malformed, too short, at the minimum, overrun by one byte,
one byte too many, no start delimiter. -/
theorem witness_FrameCommands :
    hexDecode [0x37] = .malformed [.hexOdd]
      ∧ Spec.shortOrUndelimited [0x7E, 0x01, 0x10, 0x00, 0x11, 0xF8, 0x7E]
      ∧ ¬ Spec.shortOrUndelimited [0x7E, 0x01, 0x10, 0x00, 0x11, 0xF8, 0xDF, 0x7E]
      ∧ ([0x7E, 0x01, 0x10, 0x01, 0x11, 0xF8, 0xDF, 0x7E] : List Byte).length < (0x01#8).toNat + 8
      ∧ ¬ ([0x7E, 0x01, 0x10, 0x00, 0x00, 0x11, 0xF8, 0xDF, 0x7E] : List Byte).length < (0x00#8).toNat + 8
      ∧ (0x00#8).toNat + 8 ≠ ([0x7E, 0x01, 0x10, 0x00, 0x00, 0x11, 0xF8, 0xDF, 0x7E] : List Byte).length
      ∧ Spec.shortOrUndelimited [0x00, 0x01, 0x10, 0x00, 0x11, 0xF8, 0xDF, 0x7E] := by
  unfold Spec.shortOrUndelimited; decide

/-- The canonical example, whose CRC is wrong. -/
theorem witness_IntegrityMismatchIsNoFailure :
    hexDecode (State.text (loaded textF1)) = .ok [0x7E, 0x01, 0x10, 0x02, 0x1A, 0x2B, 0x58, 0x12, 0x34, 0x7E]
      ∧ Spec.structFaultWord [0x7E, 0x01, 0x10, 0x02, 0x1A, 0x2B, 0x58, 0x12, 0x34, 0x7E] = 0 := by
  unfold Spec.structFaultWord; decide +kernel

/-- W5, and the empty sequence. -/
theorem witness_ShortSequenceNeverReachesIntegrity :
    hexDecode (State.text (loaded [0x37, 0x45, 0x30, 0x31, 0x37, 0x45])) = .ok [0x7E, 0x01, 0x7E]
      ∧ hexDecode (State.text State.reset) = .ok [] := by decide

/-- MalformedHex by HEX.DECODE and InvalidFrame by FRM.FULL, each a next state with no entity. -/
theorem witness_FailedDecodeReturnsNoEntity :
    view .hexDecode (loaded [0x37]) (fun t => resOutcomeField t.resStatus) = some 2
      ∧ view .frmFull State.reset (fun t => resOutcomeField t.resStatus) = some 3 := by decide

theorem witness_BuiltFrameRoundTrips :
    HexTextOf (State.text (loaded textF3)) (buildFrame 0x05 0x20 []) := by
  have h1 : State.text (loaded textF3) = textF3 := by decide
  have h2 : buildFrame 0x05 0x20 []
      = [hexByte 0x37 0x45, hexByte 0x30 0x35, hexByte 0x32 0x30, hexByte 0x30 0x30, hexByte 0x32 0x35, hexByte 0x32 0x31,
        hexByte 0x38 0x41, hexByte 0x37 0x45] := by decide +kernel
  rw [h1, h2]
  exact .pair _ _ _ _ (by decide) (by decide) (.pair _ _ _ _ (by decide) (by decide)
    (.pair _ _ _ _ (by decide) (by decide) (.pair _ _ _ _ (by decide) (by decide) (.sep _ _ _ (by decide)
      (.pair _ _ _ _ (by decide) (by decide) (.pair _ _ _ _ (by decide) (by decide)
        (.pair _ _ _ _ (by decide) (by decide) (.pair _ _ _ _ (by decide) (by decide) .nil))))))))

theorem witness_OneAlteredByteFailsTheChecksum : (0x00#8) ≠ 0xFF#8 := by decide

theorem witness_OnlyTheNamedCommandsWriteARegister :
    exec (.crcByte 0x01) State.reset = .next { State.reset with crc := 0xF1D1, cmdstat := 0x3100 } := by
  rw [exec_crcByte]; exact congrArg Host.Outcome.next (by decide +kernel)

/-- The same text over different accumulators, earlier results and byte sequences. -/
theorem witness_DecodeResultDependsOnlyOnTheText :
    Spec.isDecode .frmFull = true
      ∧ State.text (loaded textF1)
        = State.text { loaded textF1 with crc := 0x1234, bbuf := [(0, 0x55)], bcount := 3, resStatus := 0x4302 } := by
  decide +kernel

theorem witness_DecodeResultDependsOnlyOnTheText_windows :
    0x0010 ≤ (0x0010#16).toNat ∧ (0x7FFF#16).toNat < 0x8000 := by decide

/-- Both ends of the reserved ranges and of the windows. -/
theorem witness_ReadPortFollowsTheMap :
    (0x0006 ≤ (0x0006#16).toNat ∧ (0x000F#16).toNat ≤ 0x000F) ∧ (0x001A ≤ (0x001A#16).toNat ∧ (0x3FFF#16).toNat ≤ 0x3FFF)
      ∧ readPort (loaded textF1) 0x8013 = 0x0045 ∧ readPort (loaded textF1) 0x8014 = 0 := by decide

/-- Two states that differ beyond both valid lengths alone. -/
theorem witness_BufferTailsAreNeverObserved :
    State.sameView { loaded [0x37] with pending := [.command 0x00003711#32] }
        { loaded [0x37] with tbuf := [(0, 0x37), (1, 0x99)], bbuf := [(5, 0x11)], pending := [.command 0x00003711#32] }
      ∧ ∃ t, step { loaded [0x37] with pending := [.command 0x00003711#32] } = .next t := by
  exact ⟨by decide, _, rfl⟩

theorem witness_ResetMeetsTheInvariant : Config.legal { textMax := 526 } ∧ Config.legal { textMax := 32768 } := by decide

/-- The invariant holds of a state after FRM.VALIDATE, with the next word waiting (F3). -/
theorem witness_StepKeepsTheInvariant :
    (view .frmValidate { loaded textF3 with pending := [.command 0x00000041#32] } (fun t => decide (State.Inv t)))
      = some true := by decide +kernel

/-- There the entity exists and INT_V is set. -/
theorem witness_EntityDescribesTheByteSequence :
    (view .frmValidate (loaded textF3)
      (fun t => decide (State.Inv t) && (State.frameEntity t).isSome && intVField t.resStatus)) = some true := by
  decide +kernel

theorem witness_AssemblerRefusesBadOperands :
    stmtByte .txtPush [.num 255] = .ok (.instr (.txtPush 0xFF)) ∧ stmtByte .txtPush [.num 256] = .error .operandRange
      ∧ stmtHalf .crcInit [.num 65535] = .ok (.instr (.crcInit 0xFFFF))
      ∧ stmtHalf .crcInit [.num 65536] = .error .operandRange := by decide

theorem witness_TxtLoadFillsTheText :
    State.reset.cfg.legal ∧ (List.replicate 2048 0x37#8).length ≤ State.reset.cfg.textMax
      ∧ AsmStmt.words (.txtLoad [0x37, 0x45]) = [0x00000010#32, 0x00003711#32, 0x00004511#32] := by decide +kernel

theorem witness_InstancesShareNothing :
    Platform.stepBlock { blocks := [State.reset, waiting [.command 0x12340030#32]] } 1
      = .next { blocks := [State.reset, { State.reset with crc := 0x1234, cmdstat := 0x3000 }] } := rfl

end Sys2Proof.Tests
end

section
/-!
PROOFS. The step and runs of steps (00_scope.md R5, 30_encoding.md R68): the waiting events play no part in what a word
does, so words waiting in the list are executed as if each were issued alone.
-/
namespace Sys2Proof.Machine

/-! ### A word's effect and the waiting events -/

@[simp] theorem text_withPending (s : State) (p : List HostEvent) :
    State.text { s with pending := p } = State.text s := rfl

theorem frameOp_withPending (k : FrameCmd) (s : State) (p : List HostEvent) :
    frameOp k { s with pending := p } = { frameOp k s with pending := p } := by
  simp only [frameOp, text_withPending]
  cases hexDecode (State.text s) with
  | malformed f => rfl
  | ok b => dsimp only; split <;> rfl

theorem hexDecodeOp_withPending (s : State) (p : List HostEvent) :
    hexDecodeOp { s with pending := p } = { hexDecodeOp s with pending := p } := by
  simp only [hexDecodeOp, text_withPending]
  cases hexDecode (State.text s) <;> rfl

/-- A command does the same whatever events wait, and leaves them. -/
theorem exec_withPending {i : Instr} {s t : State} (h : exec i s = .next t) (p : List HostEvent) :
    exec i { s with pending := p } = .next { t with pending := p } := by
  cases i with
  | txtPush c =>
    by_cases hfull : s.tlen.toNat = s.cfg.textMax
    · rw [exec_txtPush_full _ _ hfull] at h
      cases h
      exact exec_txtPush_full _ c hfull
    · rw [exec_txtPush_room _ _ hfull] at h
      cases h
      exact exec_txtPush_room _ c hfull
  | hexDecode => cases h; rw [exec_hexDecode, hexDecodeOp_withPending]; rfl
  | frmHeader => cases h; rw [exec_frmHeader, frameOp_withPending]; rfl
  | frmPayload => cases h; rw [exec_frmPayload, frameOp_withPending]; rfl
  | frmValidate => cases h; rw [exec_frmValidate, frameOp_withPending]; rfl
  | frmFull => cases h; rw [exec_frmFull, frameOp_withPending]; rfl
  | _ => cases h; rfl

/-- Every command word completes, legal or not. -/
theorem runWord_completes (w : Word) (s : State) : ∃ t, runWord w s = .next t := by
  cases hd : decode w with
  | legal i => rw [runWord_legal hd]; exact exec_completes s i
  | illegal op => exact ⟨_, runWord_illegal hd s⟩

/-- A word, legal or not, does the same whatever events wait, and leaves them. -/
theorem runWord_withPending {w : Word} {s t : State} (h : runWord w s = .next t) (p : List HostEvent) :
    runWord w { s with pending := p } = .next { t with pending := p } := by
  cases hd : decode w with
  | legal i =>
    rw [runWord_legal hd] at h ⊢
    exact exec_withPending h p
  | illegal op =>
    rw [runWord_illegal hd] at h ⊢
    cases h
    rfl

/-- A word takes no waiting event and adds none. -/
theorem runWord_pending {w : Word} {s t : State} (h : runWord w s = .next t) : t.pending = s.pending := by
  have hsame : t = { t with pending := s.pending } :=
    Host.Outcome.next.inj (h.symm.trans (runWord_withPending h s.pending))
  rw [hsame]

/-- A list of words goes through its first word. -/
theorem issueAll_cons {w : Word} {s t : State} (ws : List Word) (h : runWord w s = .next t) :
    Spec.issueAll (w :: ws) s = Spec.issueAll ws t := by
  simp only [Spec.issueAll, h]

end Sys2Proof.Machine

namespace Sys2Proof

open Sys2Proof.Machine

/-- Settles O5: the step takes the event and runs the word, and a word that decodes is executed. -/
theorem stepRunsTheDecodedCommand : Obligations.StepRunsTheDecodedCommand := by
  intro s w rest i hp hd
  rw [step_command hp, runWord_legal hd]

/-- Settles O7, by induction on the words: one step does what the oldest word does alone, and leaves the later words
waiting. -/
theorem runExecutesTheWordsInOrder : Obligations.RunExecutesTheWordsInOrder := by
  intro ws rest
  induction ws with
  | nil =>
    rintro s rfl
    rfl
  | cons w ws ih =>
    intro s hp
    obtain ⟨t, ht⟩ := runWord_completes w { s with pending := rest }
    have hstep : step s = .next { t with pending := ws.map .command ++ rest } :=
      (step_command hp).trans (runWord_withPending ht _)
    obtain rfl : t.pending = rest := runWord_pending ht
    rw [List.length_cons, run_succ _ hstep, ih _ rfl, issueAll_cons ws ht]

/-! ### The decoded bytes and BBUF's capacity (00_scope.md R6) -/

/-- Settles O26: a decode gives at most one byte per two characters, and the text has TLEN characters. -/
theorem decodedBytesFitBbuf : Obligations.DecodedBytesFitBbuf := by
  intro s b htlen hdec
  calc b.length
      ≤ (State.text s).length / 2 := hexDecode_length_le hdec
    _ = s.tlen.toNat / 2 := by rw [text_length]
    _ ≤ s.cfg.byteMax := Nat.div_le_div_right htlen

end Sys2Proof
end

section
/-!
PROOFS. What a command writes (10_state.md): the ordered error list (R38), the registers each command may write (R20)
and the result of a decode (R36).
-/
namespace Sys2Proof.Machine

/-! ### The recorded faults stand in check order (10_state.md R38) -/

/-- The members of a sublist, picked out of a list without repetitions, are that sublist in its own order. -/
theorem filter_mem_of_sublist {α : Type} [DecidableEq α] {f l : List α} (h : f.Sublist l) (hl : l.Nodup) :
    l.filter (fun c => decide (c ∈ f)) = f := by
  induction h with
  | slnil => rfl
  | @cons f l a h ih =>
    obtain ⟨ha, hl⟩ := List.nodup_cons.mp hl
    have : a ∉ f := fun haf => ha (h.subset haf)
    simp [this, ih hl]
  | @cons_cons f l a h ih =>
    obtain ⟨ha, hl⟩ := List.nodup_cons.mp hl
    have hcongr : ∀ c ∈ l, decide (c ∈ a :: f) = decide (c ∈ f) := by
      intro c hc
      have : c ≠ a := fun e => ha (e ▸ hc)
      simp [this]
    rw [List.filter_cons_of_pos (by simp), List.filter_congr hcongr, ih hl]

/-- A check records its code or nothing. -/
theorem check_sublist (p : Prop) [Decidable p] (c : FaultCode) : (if p then [c] else []).Sublist [c] := by
  split <;> simp

theorem structCheck_sublist (b : List Byte) : (structCheck b).Sublist FaultCode.all :=
  ((((check_sublist _ _).append (check_sublist _ _)).append (check_sublist _ _)).append (check_sublist _ _)).trans
    (by decide : [FaultCode.tooShort, .badStart, .badEnd, .sizeMismatch].Sublist FaultCode.all)

theorem hexFaults_sublist (t : List Byte) : (hexFaults t).Sublist FaultCode.all :=
  ((check_sublist _ _).append (check_sublist _ _)).trans
    (by decide : [FaultCode.hexOdd, .hexDigit].Sublist FaultCode.all)

/-- Faults recorded in check order are read back as they are. -/
theorem errorList_faultBits_of_sublist {f : List FaultCode} (h : f.Sublist FaultCode.all) :
    errorList (faultBits f) = f := by
  rw [errorList_faultBits, filter_mem_of_sublist h (by decide)]

theorem mem_errorList (w : Half) (c : FaultCode) : c ∈ errorList w ↔ w.getLsbD c.bit = true := by
  simp only [errorList, List.mem_filter, and_iff_right_iff_imp]
  intro _
  cases c <;> decide

/-- A word whose reserved bits are 0 has no bit set from bit 6 on (10_state.md R27). -/
theorem getLsbD_of_reserved {w : Half} {i : Nat} (hw : w &&& 0xFFC0#16 = 0) (hi : i < 16) (h6 : 6 ≤ i) :
    w.getLsbD i = false := by
  have hmask : (0xFFC0#16).getLsbD i = true := by interval_cases i <;> rfl
  have hbit := congrArg (BitVec.getLsbD · i) hw
  simpa only [BitVec.getLsbD_and, hmask, Bool.and_true, BitVec.ofNat_eq_ofNat, BitVec.getLsbD_zero] using hbit

/-- Each of the six low bits belongs to a fault code. -/
theorem exists_faultCode_bit {i : Nat} (hi : i < 6) : ∃ c : FaultCode, c.bit = i := by
  have hall : ∀ j < 6, ∃ c ∈ FaultCode.all, c.bit = j := by decide
  obtain ⟨c, -, hc⟩ := hall i hi
  exact ⟨c, hc⟩

/-- Words whose reserved bits are 0 are equal when they record the same faults. -/
theorem eq_of_faultBit_eq {v w : Half} (hv : v &&& 0xFFC0#16 = 0) (hw : w &&& 0xFFC0#16 = 0)
    (h : ∀ c : FaultCode, v.getLsbD c.bit = w.getLsbD c.bit) : v = w := by
  apply BitVec.eq_of_getLsbD_eq
  intro i hi
  by_cases h6 : 6 ≤ i
  · rw [getLsbD_of_reserved hv hi h6, getLsbD_of_reserved hw hi h6]
  · obtain ⟨c, rfl⟩ := exists_faultCode_bit (Nat.lt_of_not_le h6)
    exact h c

/-- Writing back the list that was read gives the same word. -/
theorem faultBits_errorList {w : Half} (hw : w &&& 0xFFC0#16 = 0) : faultBits (errorList w) = w := by
  refine eq_of_faultBit_eq (faultBits_reserved _) hw (fun c => ?_)
  rw [getLsbD_faultBits, Bool.eq_iff_iff, decide_eq_true_iff, mem_errorList]

end Sys2Proof.Machine

namespace Sys2Proof

open Sys2Proof.Machine

/-- Settles O39: both checks record their codes in ascending bit order, so reading the bits in that order gives the
list back; a word without reserved bits is the bits of its list. -/
theorem errorListIsTheCheckOrder : Obligations.ErrorListIsTheCheckOrder := by
  refine ⟨fun b => errorList_faultBits_of_sublist (structCheck_sublist b), ?_, fun w hw => ⟨?_, ?_⟩⟩
  · intro s f h
    obtain ⟨rfl, -⟩ := hexDecode_malformed h
    exact errorList_faultBits_of_sublist (hexFaults_sublist _)
  · rw [← faultBits_eq_zero, faultBits_errorList hw]
  · exact faultBits_errorList hw

end Sys2Proof

namespace Sys2Proof.Machine

/-! ### What a command can do, by kind (10_state.md R20) -/

/-- A decode or frame command is HEX.DECODE or one of the four frame commands. -/
theorem exec_decode {i : Instr} (hi : Spec.isDecode i = true) :
    (∀ s, exec i s = .next (State.retire Opc.hexDecode .ok (hexDecodeOp s)))
      ∨ ∃ k : FrameCmd, ∀ s, exec i s = .next (State.retire k.opcode .ok (frameOp k s)) := by
  cases i with
  | hexDecode => exact .inl (fun _ => rfl)
  | frmHeader => exact .inr ⟨.header, fun _ => rfl⟩
  | frmPayload => exact .inr ⟨.payload, fun _ => rfl⟩
  | frmValidate => exact .inr ⟨.validate, fun _ => rfl⟩
  | frmFull => exact .inr ⟨.full, fun _ => rfl⟩
  | _ => exact absurd hi Bool.false_ne_true

/-- Everything TXT.PUSH can do (40_hexcodec.md R87). -/
theorem exec_txtPush_cases {c : Byte} {s t : State} (h : exec (.txtPush c) s = .next t) :
    (s.tlen.toNat = s.cfg.textMax ∧ t = State.raiseTextFull Opc.txtPush s)
      ∨ (s.tlen.toNat ≠ s.cfg.textMax ∧ t = State.retire Opc.txtPush .ok (State.appendChar c s)) := by
  by_cases hfull : s.tlen.toNat = s.cfg.textMax
  · rw [exec_txtPush_full s c hfull] at h
    exact .inl ⟨hfull, (Host.Outcome.next.inj h).symm⟩
  · rw [exec_txtPush_room s c hfull] at h
    exact .inr ⟨hfull, (Host.Outcome.next.inj h).symm⟩

/-- A decode or frame command leaves everything but BBUF, BCOUNT, CMDSTAT and the result registers. -/
theorem exec_decode_frame {i : Instr} {s t : State} (hi : Spec.isDecode i = true) (h : exec i s = .next t) :
    t.cfg = s.cfg ∧ t.pending = s.pending ∧ t.crc = s.crc ∧ t.csum = s.csum ∧ t.tbuf = s.tbuf
      ∧ t.tlen = s.tlen := by
  obtain hx | ⟨k, hx⟩ := exec_decode hi <;> cases (hx s).symm.trans h
  · simpa using hexDecodeOp_frame s
  · simpa using frameOp_frame s k

/-- Every other command but SRST leaves the byte sequence, the results, the parameter and the waiting events. -/
theorem exec_bystander {i : Instr} {s t : State} (hi : Spec.isDecode i = false) (hsrst : i ≠ .srst)
    (h : exec i s = .next t) :
    t = { s with crc := t.crc, csum := t.csum, tlen := t.tlen, tbuf := t.tbuf, cmdstat := t.cmdstat } := by
  cases i with
  | srst => exact absurd rfl hsrst
  | hexDecode | frmHeader | frmPayload | frmValidate | frmFull => exact nomatch hi
  | txtPush c => obtain ⟨-, rfl⟩ | ⟨-, rfl⟩ := exec_txtPush_cases h <;> rfl
  | _ => cases h; rfl

/-- Which commands write an accumulator or the text. -/
theorem exec_accumulators_text {i : Instr} {s t : State} (h : exec i s = .next t) :
    (t.crc = s.crc ∨ i = .srst ∨ (∃ v, i = .crcInit v) ∨ ∃ b, i = .crcByte b)
      ∧ (t.csum = s.csum ∨ i = .srst ∨ i = .csumClear ∨ ∃ b, i = .csumByte b)
      ∧ (t.tlen = s.tlen ∨ i = .srst ∨ i = .txtClear ∨ i = .txtSanitize ∨ ∃ c, i = .txtPush c)
      ∧ (t.tbuf = s.tbuf ∨ i = .txtSanitize ∨ ∃ c, i = .txtPush c) := by
  cases hi : Spec.isDecode i with
  | true =>
    obtain ⟨-, -, hcrc, hcsum, htbuf, htlen⟩ := exec_decode_frame hi h
    exact ⟨.inl hcrc, .inl hcsum, .inl htlen, .inl htbuf⟩
  | false =>
    cases i with
    | txtPush c => obtain ⟨-, rfl⟩ | ⟨-, rfl⟩ := exec_txtPush_cases h <;> simp [State.raiseTextFull]
    | hexDecode | frmHeader | frmPayload | frmValidate | frmFull => exact nomatch hi
    | _ => cases h; simp

end Sys2Proof.Machine

namespace Sys2Proof

open Sys2Proof.Machine

/-- Settles O50: a decode or frame command writes BBUF and the results only, SRST every register, and any other command
none of these. -/
theorem onlyTheNamedCommandsWriteARegister : Obligations.OnlyTheNamedCommandsWriteARegister := by
  intro i s t h
  obtain ⟨hcrc, hcsum, htlen, htbuf⟩ := exec_accumulators_text h
  refine ⟨hcrc, hcsum, htlen, htbuf, ?_⟩
  cases hi : Spec.isDecode i with
  | true =>
    obtain ⟨hcfg, hpending, -⟩ := exec_decode_frame hi h
    exact ⟨.inr rfl, .inl rfl, hcfg, hpending⟩
  | false =>
    by_cases hsrst : i = .srst
    · subst hsrst
      cases h
      exact ⟨.inl rfl, .inr (.inl rfl), rfl, rfl⟩
    · have hby := exec_bystander hi hsrst h
      exact ⟨.inl (by rw [hby]), .inr (.inr hby), by rw [hby], by rw [hby]⟩

end Sys2Proof

namespace Sys2Proof.Machine

/-! ### The result of a decode (10_state.md R36) -/

/-- The state with everything but BCOUNT and the result registers blanked. -/
def State.resultOnly (s : State) : State :=
  { s with cfg := Config.default, crc := 0, csum := 0, tbuf := [], tlen := 0, bbuf := [], cmdstat := 0, pending := [] }

/-- Two states that hold the same result: the byte sequence, BCOUNT and every result register agree. -/
def State.sameResult (s t : State) : Prop :=
  State.bytes s = State.bytes t ∧ State.resultOnly s = State.resultOnly t

/-- The bytes a text decodes to; none where it is malformed (40_hexcodec.md R89, 43_frame.md R115). -/
def decodedBytes (t : List Byte) : List Byte :=
  match hexDecode t with
  | .malformed _ => []
  | .ok b => b

theorem decodedBytes_ok {t b : List Byte} (h : hexDecode t = .ok b) : decodedBytes t = b := by
  rw [decodedBytes, h]

theorem decodedBytes_malformed {t : List Byte} {f : List FaultCode} (h : hexDecode t = .malformed f) :
    decodedBytes t = [] := by
  rw [decodedBytes, h]

@[simp] theorem bytes_raiseMalformedHex (s : State) (op : Byte) (f : List FaultCode) :
    State.bytes (State.raiseMalformedHex op f s) = [] := by
  rw [State.bytes, raiseMalformedHex_bcount]
  rfl

@[simp] theorem bytes_withResStatus (s : State) (w : Half) :
    State.bytes { s with resStatus := w } = State.bytes s := rfl

theorem bytes_hexDecodeOp (s : State) : State.bytes (hexDecodeOp s) = decodedBytes (State.text s) := by
  obtain ⟨f, hdec, h⟩ | ⟨b, hdec, h⟩ := hexDecodeOp_cases s
  · rw [h, bytes_raiseMalformedHex, decodedBytes_malformed hdec]
  · rw [h, bytes_withResStatus, bytes_putBytes _ _ (decoded_length_lt hdec), decodedBytes_ok hdec]

theorem bytes_frameOp (k : FrameCmd) (s : State) : State.bytes (frameOp k s) = decodedBytes (State.text s) := by
  obtain ⟨f, hdec, h⟩ | ⟨b, hdec, -, h⟩ | ⟨b, hdec, -, h⟩ := frameOp_cases k s
  · rw [h, bytes_raiseMalformedHex, decodedBytes_malformed hdec]
  · rw [h, bytes_raiseInvalidFrame, bytes_putBytes _ _ (decoded_length_lt hdec), decodedBytes_ok hdec]
  · rw [h, bytes_populate, bytes_putBytes _ _ (decoded_length_lt hdec), decodedBytes_ok hdec]

theorem hexDecodeOp_sameResult {s u : State} (h : State.text s = State.text u) :
    State.sameResult (hexDecodeOp s) (hexDecodeOp u) := by
  refine ⟨by rw [bytes_hexDecodeOp, bytes_hexDecodeOp, h], ?_⟩
  simp only [hexDecodeOp, h]
  cases hexDecode (State.text u) <;> rfl

theorem frameOp_sameResult {s u : State} (k : FrameCmd) (h : State.text s = State.text u) :
    State.sameResult (frameOp k s) (frameOp k u) := by
  refine ⟨by rw [bytes_frameOp, bytes_frameOp, h], ?_⟩
  simp only [frameOp, h]
  cases hexDecode (State.text u) with
  | malformed f => rfl
  | ok b => dsimp only; split <;> rfl

/-- CMDSTAT is no part of a result. -/
theorem sameResult_retire {t v : State} (op : Byte) (o : CmdOutcome) (h : State.sameResult t v) :
    State.sameResult (State.retire op o t) (State.retire op o v) := h

/-- A decode or frame command answers the same result from the same text. -/
theorem exec_sameResult {i : Instr} {s u t v : State} (hi : Spec.isDecode i = true)
    (htext : State.text s = State.text u) (ht : exec i s = .next t) (hv : exec i u = .next v) :
    State.sameResult t v := by
  obtain hx | ⟨k, hx⟩ := exec_decode hi <;> cases (hx s).symm.trans ht <;> cases (hx u).symm.trans hv
  · exact sameResult_retire _ _ (hexDecodeOp_sameResult htext)
  · exact sameResult_retire _ _ (frameOp_sameResult k htext)

/-! ### What the host sees of a result -/

/-- A window shows the elements below the valid length, and nothing else of the memory. -/
theorem windowRead_eq (m : Memory) (n : Half) (i : Nat) :
    windowRead m n i = ((Memory.readSeq m n.toNat)[i]?).elim 0 zext16 := by
  rw [windowRead, getElem?_readSeq]
  split <;> rfl

/-- The Frame entity is a view of the result registers and the byte sequence. -/
theorem frameEntity_congr {t v : State} (h : State.sameResult t v) : State.frameEntity t = State.frameEntity v := by
  obtain ⟨hbytes, hregs⟩ := h
  simp only [State.resultOnly, State.mk.injEq, true_and, and_true] at hregs
  simp only [State.frameEntity, State.payload, hbytes, hregs]

/-- The registers from 0x0010 on are result registers (20_memory.md R43). -/
theorem registerRead_resultOnly (s : State) {a : Nat} (ha : 0x0010 ≤ a) :
    registerRead s a = registerRead (State.resultOnly s) a := by
  unfold registerRead
  split
  case h_1 | h_2 | h_3 | h_4 | h_5 | h_6 => omega
  all_goals rfl

/-- The result registers and the BBUF window show the result alone. -/
theorem readPort_congr {t v : State} (h : State.sameResult t v) {a : Half} (hlo : 0x0010 ≤ a.toNat)
    (hhi : a.toNat < 0x8000) : readPort t a = readPort v a := by
  obtain ⟨hbytes, hregs⟩ := h
  unfold readPort
  split
  · rw [registerRead_resultOnly t hlo, registerRead_resultOnly v hlo, hregs]
  · rw [windowRead_eq, windowRead_eq]
    exact congrArg (fun l : List Byte => (l[a.toNat - 0x4000]?).elim 0 zext16) hbytes

end Sys2Proof.Machine

namespace Sys2Proof

open Sys2Proof.Machine

/-- Settles O51: the result is the same from the same text, and what the host sees of a result is the result's alone. -/
theorem decodeResultDependsOnlyOnTheText : Obligations.DecodeResultDependsOnlyOnTheText := by
  intro i s u t v hi htext ht hv
  have h := exec_sameResult hi htext ht hv
  exact ⟨h.1, frameEntity_congr h, fun a hlo hhi => readPort_congr h hlo hhi⟩

end Sys2Proof
end

section
/-!
PROOFS. The invariant of the block (10_state.md R23-R31), part by part and along a step, and the Frame entity read out
of a state that meets it (R37, R38).
-/
namespace Sys2Proof.Machine

/-! ### The invariant: the buffers (10_state.md R23, R24) -/

/-- One buffer of capacity `cap` with `n` valid elements is canonical and in bounds. -/
def bufferOk (cap : Nat) (m : Memory) (n : Half) : Prop :=
  Memory.wf m = true ∧ Memory.below cap m = true ∧ n.toNat ≤ cap

theorem buffersOk_iff (s : State) : State.buffersOk s ↔
    bufferOk s.cfg.textMax s.tbuf s.tlen ∧ bufferOk s.cfg.byteMax s.bbuf s.bcount := by
  simp only [State.buffersOk, bufferOk, and_assoc]

theorem bufferOk_empty {cap : Nat} {m : Memory} {n : Half} (h : bufferOk cap m n) : bufferOk cap m 0 := by
  obtain ⟨hwf, hbelow, -⟩ := h
  exact ⟨hwf, hbelow, Nat.zero_le _⟩

theorem bufferOk_writeSeq {cap : Nat} {m : Memory} {n : Half} {bs : List Byte} (hlen : bs.length ≤ cap)
    (h : bufferOk cap m n) : bufferOk cap (Memory.writeSeq m 0 bs) (BitVec.ofNat 16 bs.length) := by
  obtain ⟨hwf, hbelow, -⟩ := h
  refine ⟨wf_writeSeq _ _ _ hwf, below_writeSeq _ _ _ _ (by omega) hbelow, ?_⟩
  rw [BitVec.toNat_ofNat]
  exact (Nat.mod_le _ _).trans hlen

theorem bufferOk_write {cap : Nat} {m : Memory} {n : Half} (c : Byte) (hroom : n.toNat ≠ cap) (h : bufferOk cap m n) :
    bufferOk cap (Memory.write m n.toNat c) (n + 1) := by
  obtain ⟨hwf, hbelow, hn⟩ := h
  refine ⟨wf_write _ _ _ hwf, below_write _ _ _ _ (by omega) hbelow, ?_⟩
  have hsucc : (n + 1).toNat ≤ n.toNat + 1 := by bv_omega
  omega

/-- Every command keeps the text buffer in bounds. -/
theorem exec_tbuf_bufferOk {i : Instr} {s t : State} (h : exec i s = .next t)
    (hs : bufferOk s.cfg.textMax s.tbuf s.tlen) : bufferOk t.cfg.textMax t.tbuf t.tlen := by
  cases hi : Spec.isDecode i with
  | true =>
    obtain ⟨hcfg, -, -, -, htbuf, htlen⟩ := exec_decode_frame hi h
    rwa [hcfg, htbuf, htlen]
  | false =>
    cases i with
    | hexDecode | frmHeader | frmPayload | frmValidate | frmFull => exact nomatch hi
    | srst | txtClear => cases h; exact bufferOk_empty hs
    | txtPush c =>
      obtain ⟨-, rfl⟩ | ⟨hroom, rfl⟩ := exec_txtPush_cases h
      · exact hs
      · exact bufferOk_write c hroom hs
    | txtSanitize =>
      cases h
      obtain ⟨-, -, htlen⟩ := id hs
      exact bufferOk_writeSeq ((length_sanitize_le _).trans ((text_length s).trans_le htlen)) hs
    | _ => cases h; exact hs

theorem hexDecodeOp_bbuf_bufferOk {s : State} (htlen : s.tlen.toNat ≤ s.cfg.textMax)
    (hs : bufferOk s.cfg.byteMax s.bbuf s.bcount) :
    bufferOk s.cfg.byteMax (hexDecodeOp s).bbuf (hexDecodeOp s).bcount := by
  obtain ⟨f, -, e⟩ | ⟨b, hdec, e⟩ := hexDecodeOp_cases s <;> rw [e]
  · exact bufferOk_empty hs
  · exact bufferOk_writeSeq (decodedBytesFitBbuf s b htlen hdec) hs

theorem frameOp_bbuf_bufferOk {s : State} (k : FrameCmd) (htlen : s.tlen.toNat ≤ s.cfg.textMax)
    (hs : bufferOk s.cfg.byteMax s.bbuf s.bcount) :
    bufferOk s.cfg.byteMax (frameOp k s).bbuf (frameOp k s).bcount := by
  obtain ⟨f, -, e⟩ | ⟨b, hdec, -, e⟩ | ⟨b, hdec, -, e⟩ := frameOp_cases k s <;> rw [e]
  · exact bufferOk_empty hs
  · exact bufferOk_writeSeq (decodedBytesFitBbuf s b htlen hdec) hs
  · exact bufferOk_writeSeq (decodedBytesFitBbuf s b htlen hdec) hs

/-- Every command keeps BBUF in bounds, from a text that is (00_scope.md R6). -/
theorem exec_bbuf_bufferOk {i : Instr} {s t : State} (h : exec i s = .next t) (htlen : s.tlen.toNat ≤ s.cfg.textMax)
    (hs : bufferOk s.cfg.byteMax s.bbuf s.bcount) : bufferOk t.cfg.byteMax t.bbuf t.bcount := by
  cases hi : Spec.isDecode i with
  | true =>
    obtain ⟨hcfg, -⟩ := exec_decode_frame hi h
    rw [hcfg]
    obtain hx | ⟨k, hx⟩ := exec_decode hi <;> cases (hx s).symm.trans h
    · simpa using hexDecodeOp_bbuf_bufferOk htlen hs
    · simpa using frameOp_bbuf_bufferOk k htlen hs
  | false =>
    by_cases hsrst : i = .srst
    · subst hsrst
      cases h
      exact bufferOk_empty hs
    · rw [exec_bystander hi hsrst h]
      exact hs

/-! ### The invariant: CMDSTAT (10_state.md R25) -/

/-- The last write of a command word is a legal CMDSTAT. -/
theorem cmdstatOk_retire {op : Byte} {o : CmdOutcome} (s : State) (h : o = .textFull → op = Opc.txtPush) :
    State.cmdstatOk (State.retire op o s) := by
  refine ⟨cmdstatWord_reserved op o, ?_, ?_⟩ <;> rw [retire_cmdstat, cmdOutcomeField_word]
  · cases o <;> decide
  · rw [lastOpField_word]
    intro ho
    cases o with
    | textFull => exact h rfl
    | ok | illegal => exact absurd ho (by decide)

/-- Every command leaves a legal CMDSTAT, whatever it found. -/
theorem exec_cmdstatOk {i : Instr} {s t : State} (h : exec i s = .next t) : State.cmdstatOk t := by
  cases i with
  | txtPush c => obtain ⟨-, rfl⟩ | ⟨-, rfl⟩ := exec_txtPush_cases h <;> exact cmdstatOk_retire _ (fun _ => rfl)
  | _ => cases h; exact cmdstatOk_retire _ nofun

theorem cmdstatOk_applyReset (s : State) : State.cmdstatOk (State.applyReset s) := by
  rw [State.cmdstatOk, applyReset_cmdstat]
  decide

/-! ### The invariant: the result registers (10_state.md R26-R31) -/

theorem faultBits_hexFaults_mem {t : List Byte} (h : hexFaults t ≠ []) :
    faultBits (hexFaults t) ∈ [0x0001#16, 0x0002#16, 0x0003#16] := by
  unfold hexFaults at h ⊢
  split <;> split
  · decide
  · decide
  · decide
  · simp_all

theorem structCheck_ne_nil_of_fails {k : FrameCmd} {b : List Byte} (h : k.fails b (structCheck b) = true) :
    structCheck b ≠ [] := by
  intro hnil
  obtain ⟨h8, -, -, hlen⟩ := (structCheck_eq_nil b).mp hnil
  have hover : overruns b = false := by
    rw [← Bool.not_eq_true, overruns_iff]
    omega
  cases k <;> simp [FrameCmd.fails, hnil, hover] at h

/-- A result without a populated field needs only a legal status and the faults its outcome asks for. Reset, both
failures and HEX.DECODE's success leave such a result. -/
theorem resultOk_bareResult {s : State} {w f : Half} (hw : w ∈ statusValues)
    (hbits : hdrVField w = false ∧ payVField w = false ∧ intVField w = false)
    (hf : State.faultsOk (Spec.bareResult w f s)) : State.resultOk (Spec.bareResult w f s) := by
  obtain ⟨hhdr, hpay, hint⟩ := hbits
  refine ⟨hw, ?_, ?_, ?_, hf⟩
  · simp [Spec.bareResult, hpay]
  · simp [State.headerOk, Spec.bareResult, hhdr]
  · simp [State.integrityOk, Spec.bareResult, hint]

theorem resultOk_applyReset (s : State) : State.resultOk (State.applyReset s) :=
  resultOk_bareResult (s := State.applyReset s) (w := 0) (f := 0) (by decide) (by decide)
    (by simp [State.faultsOk, Spec.bareResult, resOutcomeField, ResOutcome.code, hdrVField])

/-- MalformedHex: no bytes, and the hex faults alone (60_exceptions.md R143). -/
theorem resultOk_raiseMalformedHex {op : Byte} {f : List FaultCode} (s : State)
    (hop : resStatusWord op false false false .malformedHex ∈ statusValues)
    (hf : faultBits f ∈ [0x0001#16, 0x0002#16, 0x0003#16]) :
    State.resultOk (State.raiseMalformedHex op f (State.clearResults op s)) := by
  refine resultOk_bareResult (s := State.raiseMalformedHex op f s) hop (by simp) ?_
  simpa [State.faultsOk, Spec.bareResult] using hf

/-- InvalidFrame: the structural faults of the bytes, at least one (60_exceptions.md R144). -/
theorem resultOk_raiseInvalidFrame (k : FrameCmd) {b : List Byte} (s : State) (hb : b.length < 65536)
    (hne : structCheck b ≠ []) :
    State.resultOk
      (State.raiseInvalidFrame k.opcode (structCheck b) (State.putBytes b (State.clearResults k.opcode s))) := by
  refine resultOk_bareResult (s := State.putBytes b s) (by cases k <;> decide) (by simp) ?_
  have hbytes (w f : Half) : State.bytes (Spec.bareResult w f (State.putBytes b s)) = b := bytes_putBytes s b hb
  have hfaults : faultBits (structCheck b) ≠ 0 := (faultBits_eq_zero _).not.mpr hne
  rw [State.faultsOk, hbytes]
  simpa [Spec.bareResult, ResOutcome.code] using hfaults

/-- A frame command that did not fail: every field it populates is the bytes' own (43_frame.md R115). -/
theorem resultOk_populate {k : FrameCmd} {b : List Byte} (s : State) (hb : b.length < 65536)
    (hok : k.fails b (structCheck b) = false) :
    State.resultOk (State.populate k b (State.putBytes b (State.clearResults k.opcode s))) := by
  have hbytes := bytes_putBytes (State.clearResults k.opcode s) b hb
  have hpay : k.populatesIntegrity = true → k.populatesPayload = true := by cases k <;> decide
  refine ⟨?_, ?_, ?_, ?_, ?_⟩
  · rw [populate_resStatus]
    cases k <;> decide
  · simpa [hbytes] using fun hk => locatable_of_not_fails hk hok
  · simpa [State.headerOk, hbytes] using length_of_not_fails hok
  · cases hint : k.populatesIntegrity with
    | true => simpa [State.integrityOk, hbytes, hint] using locatable_of_not_fails (hpay hint) hok
    | false => simp [State.integrityOk, hint]
  · simp [State.faultsOk, ResOutcome.code, hbytes]

theorem resultOk_hexDecodeOp (s : State) : State.resultOk (hexDecodeOp s) := by
  obtain ⟨f, hdec, e⟩ | ⟨b, -, e⟩ := hexDecodeOp_cases s <;> rw [e]
  · obtain ⟨rfl, hne⟩ := hexDecode_malformed hdec
    exact resultOk_raiseMalformedHex _ (by decide) (faultBits_hexFaults_mem hne)
  · exact resultOk_bareResult (s := State.putBytes b s) (f := 0) (by decide) (by simp)
      (by simp [State.faultsOk, Spec.bareResult, ResOutcome.code])

theorem resultOk_frameOp (k : FrameCmd) (s : State) : State.resultOk (frameOp k s) := by
  obtain ⟨f, hdec, e⟩ | ⟨b, hdec, hfails, e⟩ | ⟨b, hdec, hok, e⟩ := frameOp_cases k s <;> rw [e]
  · obtain ⟨rfl, hne⟩ := hexDecode_malformed hdec
    exact resultOk_raiseMalformedHex _ (by cases k <;> decide) (faultBits_hexFaults_mem hne)
  · exact resultOk_raiseInvalidFrame k _ (decoded_length_lt hdec) (structCheck_ne_nil_of_fails hfails)
  · exact resultOk_populate _ (decoded_length_lt hdec) hok

theorem resultOk_retire {op : Byte} {o : CmdOutcome} {s : State} (h : State.resultOk s) :
    State.resultOk (State.retire op o s) := h

/-- Every command keeps a result that describes BBUF: a decode or frame command makes one, SRST the empty one. -/
theorem exec_resultOk {i : Instr} {s t : State} (h : exec i s = .next t) (hs : State.resultOk s) :
    State.resultOk t := by
  cases hi : Spec.isDecode i with
  | true =>
    obtain hx | ⟨k, hx⟩ := exec_decode hi <;> cases (hx s).symm.trans h
    · exact resultOk_retire (resultOk_hexDecodeOp s)
    · exact resultOk_retire (resultOk_frameOp k s)
  | false =>
    by_cases hsrst : i = .srst
    · subst hsrst
      cases h
      exact resultOk_retire (resultOk_applyReset s)
    · rw [exec_bystander hi hsrst h]
      exact hs

/-! ### The invariant along a step -/

theorem exec_keeps_inv {i : Instr} {s t : State} (h : exec i s = .next t) (hs : State.Inv s) : State.Inv t := by
  obtain ⟨hlegal, hbuffers, -, hresult⟩ := hs
  obtain ⟨htbuf, hbbuf⟩ := (buffersOk_iff s).mp hbuffers
  obtain ⟨-, -, htlen⟩ := id htbuf
  obtain ⟨-, -, -, -, -, -, hcfg, -⟩ := onlyTheNamedCommandsWriteARegister i s t h
  have hbuffers' := (buffersOk_iff t).mpr ⟨exec_tbuf_bufferOk h htbuf, exec_bbuf_bufferOk h htlen hbbuf⟩
  exact ⟨hcfg ▸ hlegal, hbuffers', exec_cmdstatOk h, exec_resultOk h hresult⟩

theorem applyReset_keeps_inv {s : State} (hs : State.Inv s) : State.Inv (State.applyReset s) := by
  obtain ⟨hlegal, hbuffers, -, -⟩ := hs
  obtain ⟨htbuf, hbbuf⟩ := (buffersOk_iff s).mp hbuffers
  have hbuffers' := (buffersOk_iff (State.applyReset s)).mpr ⟨bufferOk_empty htbuf, bufferOk_empty hbbuf⟩
  exact ⟨hlegal, hbuffers', cmdstatOk_applyReset s, resultOk_applyReset s⟩

theorem raiseIllegal_keeps_inv {s : State} (op : Byte) (hs : State.Inv s) : State.Inv (State.raiseIllegal op s) := by
  obtain ⟨hlegal, hbuffers, -, hresult⟩ := hs
  exact ⟨hlegal, hbuffers, cmdstatOk_retire s nofun, resultOk_retire hresult⟩

theorem inv_withPending {s : State} (p : List HostEvent) (hs : State.Inv s) : State.Inv { s with pending := p } := hs

end Sys2Proof.Machine

namespace Sys2Proof

open Sys2Proof.Machine

/-- Settles O55, by the events a step can take: none, the reset input, an illegal word, a command. -/
theorem stepKeepsTheInvariant : Obligations.StepKeepsTheInvariant := by
  intro s t hs h
  obtain ⟨-, rfl⟩ | ⟨rest, ⟨x, -, rfl⟩ | ⟨w, op, -, -, rfl⟩ | ⟨w, i, -, -, hexec⟩⟩ := step_cases h
  · exact hs
  · exact applyReset_keeps_inv (inv_withPending rest hs)
  · exact raiseIllegal_keeps_inv op (inv_withPending rest hs)
  · exact exec_keeps_inv hexec (inv_withPending rest hs)

end Sys2Proof

namespace Sys2Proof.Machine

/-! ### The Frame entity (10_state.md R37, R38) -/

/-- INT_V is set only by a FRM.VALIDATE or FRM.FULL that succeeded, with the other validity bits. -/
theorem statusValues_intV {w : Half} (hw : w ∈ statusValues) (hint : intVField w = true) :
    hdrVField w = true ∧ payVField w = true ∧ resOutcomeField w = ResOutcome.ok.code := by
  have hfilter : statusValues.filter intVField = [0x421D, 0x431D] := by decide
  have hmem : w ∈ statusValues.filter intVField := List.mem_filter.mpr ⟨hw, hint⟩
  rw [hfilter, List.mem_pair] at hmem
  obtain rfl | rfl := hmem <;> decide

/-- The Frame entity of a validated byte sequence: its header, payload, integrity and structural faults. -/
def validatedEntity (b : List Byte) : FrameEntity where
  deviceId := some (byteAt b 1)
  command := some (byteAt b 2)
  length := some (byteAt b 3)
  payload := (b.drop 4).take (frameLen b)
  checksumGiven := some (integrity b).csumGiven
  checksumCalc := some (integrity b).csumCalc
  crcGiven := some (integrity b).crcGiven
  crcCalc := some (integrity b).crcCalc
  checksumValid := some (integrity b).csumValid
  crcValid := some (integrity b).crcValid
  errors := structCheck b

/-- With INT_V set, the result registers are the validated entity of the bytes in BBUF. -/
theorem frameEntity_eq_validated {s : State} (hresult : State.resultOk s) (hint : intVField s.resStatus = true) :
    State.frameEntity s = some (validatedEntity (State.bytes s)) := by
  obtain ⟨hstatus, -, hheader, hintegrity, hfaults⟩ := hresult
  obtain ⟨hhdrV, hpayV, hok⟩ := statusValues_intV hstatus hint
  rw [State.headerOk, if_pos hhdrV] at hheader
  rw [State.integrityOk, if_pos hint] at hintegrity
  rw [State.faultsOk, hok, if_neg (by decide), if_neg (by decide), if_pos hhdrV] at hfaults
  obtain ⟨-, hdev, hcmd, hlen⟩ := hheader
  obtain ⟨-, hcsumGiven, hcsumCalc, hcrcGiven, hcrcCalc, hflags⟩ := hintegrity
  have herrors : errorList s.resFaults = structCheck (State.bytes s) := by
    rw [hfaults, errorList_faultBits_of_sublist (structCheck_sublist _)]
  simp only [State.frameEntity, State.payload, validatedEntity, frameLen, whenValid, hok, hhdrV, hpayV, hint, if_true,
    hdev, hcmd, hlen, hcsumGiven, hcsumCalc, hcrcGiven, hcrcCalc, hflags, csumValidField_word, crcValidField_word,
    herrors]

/-- The payload of a locatable sequence has its declared length (43_frame.md R112). -/
theorem payload_length {b : List Byte} (h : locatable b = true) :
    ((b.drop 4).take (frameLen b)).length = frameLen b := by
  obtain ⟨-, hfits⟩ := (locatable_iff b).mp h
  rw [List.length_take, List.length_drop]
  omega

/-- Two bytes laid side by side, the first high, as 20_memory.md R45 writes it. -/
theorem append_eq_shift_or (hi lo : Byte) : (hi ++ lo : Half) = (zext16 hi <<< 8) ||| zext16 lo := by
  apply BitVec.eq_of_getLsbD_eq
  intro i hi16
  rw [BitVec.getLsbD_or, getLsbD_zext8 _ _ hi16, BitVec.getLsbD_append]
  by_cases h : i < 8
  · simp [h, hi16]
  · simp [h, show 8 ≤ i by omega]

end Sys2Proof.Machine

namespace Sys2Proof

open Sys2Proof.Machine

/-- Settles O56: the entity is the validated entity of the bytes in BBUF, whose fields are those of the statement. -/
theorem entityDescribesTheByteSequence : Obligations.EntityDescribesTheByteSequence := by
  intro s e hinv hentity hint
  obtain ⟨-, -, -, hresult⟩ := hinv
  obtain ⟨hstatus, hlocatable, -⟩ := id hresult
  obtain ⟨-, hpayV, -⟩ := statusValues_intV hstatus hint
  obtain rfl : validatedEntity (State.bytes s) = e :=
    Option.some.inj ((frameEntity_eq_validated hresult hint).symm.trans hentity)
  refine ⟨rfl, rfl, rfl, rfl, payload_length (hlocatable hpayV), rfl, rfl, ?_, rfl, ?_, ?_, rfl⟩
  · exact congrArg some (append_eq_shift_or _ _)
  · simp [validatedEntity, Integrity.csumValid]
  · simp [validatedEntity, Integrity.crcValid]

end Sys2Proof
end

section
/-!
PROOFS. The read port (20_memory.md R41-R43): what each address reads, and the host's view, which no step leaves
(R42, 70_reset_and_hazards.md R161).
-/
namespace Sys2Proof.Machine

/-! ### What an address reads -/

theorem readPort_register (s : State) {a : Half} (ha : a.toNat < 0x4000) : readPort s a = registerRead s a.toNat :=
  if_pos ha

theorem readPort_bbufWindow (s : State) {i : Nat} (hi : i < 0x4000) :
    readPort s (BitVec.ofNat 16 (0x4000 + i)) = windowRead s.bbuf s.bcount i := by
  have ha : (BitVec.ofNat 16 (0x4000 + i)).toNat = 0x4000 + i := by
    rw [BitVec.toNat_ofNat, Nat.mod_eq_of_lt (by omega)]
  rw [readPort, ha, if_neg (by omega), if_pos (by omega), Nat.add_sub_cancel_left]

theorem readPort_tbufWindow (s : State) {i : Nat} (hi : i < 0x8000) :
    readPort s (BitVec.ofNat 16 (0x8000 + i)) = windowRead s.tbuf s.tlen i := by
  have ha : (BitVec.ofNat 16 (0x8000 + i)).toNat = 0x8000 + i := by
    rw [BitVec.toNat_ofNat, Nat.mod_eq_of_lt (by omega)]
  rw [readPort, ha, if_neg (by omega), if_neg (by omega), Nat.add_sub_cancel_left]

/-- Between and above the named registers every address is reserved (20_memory.md R43). -/
theorem registerRead_reserved (s : State) {a : Nat} (ha : (0x0006 ≤ a ∧ a ≤ 0x000F) ∨ 0x001A ≤ a) :
    registerRead s a = 0 := by
  unfold registerRead
  split
  case h_17 => rfl
  all_goals omega

end Sys2Proof.Machine

namespace Sys2Proof

open Sys2Proof.Machine

/-- Settles O52: the named registers by evaluation, the reserved addresses and the two windows by their rules. -/
theorem readPortFollowsTheMap : Obligations.ReadPortFollowsTheMap := by
  intro s
  refine ⟨rfl, rfl, fun a ha => ?_, fun i hi => readPort_bbufWindow s hi, fun i hi => readPort_tbufWindow s hi⟩
  rw [readPort_register s (by omega)]
  exact registerRead_reserved s (by omega)

end Sys2Proof

namespace Sys2Proof.Machine

/-! ### Memories that agree below a length -/

/-- Memories that agree below `n` agree below any shorter length. -/
theorem readSeq_congr_of_le {m m' : Memory} {n k : Nat} (h : Memory.readSeq m n = Memory.readSeq m' n) (hk : k ≤ n) :
    Memory.readSeq m k = Memory.readSeq m' k :=
  readSeq_congr (fun _ hi => read_eq_of_readSeq_eq h (hi.trans_le hk))

/-- A run written from index 0 hides what the memory held below the run's length. -/
theorem readSeq_writeSeq_congr (m m' : Memory) (bs : List Byte) {k : Nat} (hk : k ≤ bs.length) :
    Memory.readSeq (Memory.writeSeq m 0 bs) k = Memory.readSeq (Memory.writeSeq m' 0 bs) k := by
  refine readSeq_congr (fun i hi => ?_)
  have hin : 0 ≤ i ∧ i < 0 + bs.length := by omega
  rw [read_writeSeq, read_writeSeq, if_pos hin, if_pos hin]

/-- Memories that agree below `n` agree one element further once the same value was written at `n`. -/
theorem readSeq_write_congr {m m' : Memory} {n k : Nat} (v : Byte) (h : Memory.readSeq m n = Memory.readSeq m' n)
    (hk : k ≤ n + 1) : Memory.readSeq (Memory.write m n v) k = Memory.readSeq (Memory.write m' n v) k :=
  readSeq_congr_of_le (by rw [readSeq_write_succ, readSeq_write_succ, h]) hk

/-! ### The host's view under the shared operations -/

/-- A state in the view of `s` is `s` with other memories that agree below the valid lengths. -/
theorem sameView_cases {s t : State} (h : State.sameView s t) :
    ∃ m n, t = { s with tbuf := m, bbuf := n }
      ∧ Memory.readSeq s.tbuf s.tlen.toNat = Memory.readSeq m s.tlen.toNat
      ∧ Memory.readSeq s.bbuf s.bcount.toNat = Memory.readSeq n s.bcount.toNat := by
  obtain ⟨hregs, htext, hbytes⟩ := h
  have htlen : s.tlen = t.tlen := (congrArg State.tlen hregs :)
  have hbcount : s.bcount = t.bcount := (congrArg State.bcount hregs :)
  refine ⟨t.tbuf, t.bbuf, ?_, ?_, ?_⟩
  · exact congrArg (fun r : State => { r with tbuf := t.tbuf, bbuf := t.bbuf }) hregs.symm
  · exact htext.trans (by rw [htlen, State.text])
  · exact hbytes.trans (by rw [hbcount, State.bytes])

/-- An operation that neither reads nor writes the memories and lengthens neither the text nor the byte sequence
keeps the view: shortening only hides elements. -/
theorem sameView_registers (f : State → State) {s t : State}
    (hf : ∀ u m n, f { u with tbuf := m, bbuf := n } = { f u with tbuf := m, bbuf := n })
    (htlen : (f s).tlen.toNat ≤ s.tlen.toNat) (hbcount : (f s).bcount.toNat ≤ s.bcount.toNat)
    (h : State.sameView s t) : State.sameView (f s) (f t) := by
  obtain ⟨m, n, rfl, htext, hbytes⟩ := sameView_cases h
  have hkeep : f s = { f s with tbuf := s.tbuf, bbuf := s.bbuf } := hf s s.tbuf s.bbuf
  rw [hf s m n, hkeep]
  exact ⟨rfl, readSeq_congr_of_le htext htlen, readSeq_congr_of_le hbytes hbcount⟩

theorem sameView_withPending {s t : State} (p : List HostEvent) (h : State.sameView s t) :
    State.sameView { s with pending := p } { t with pending := p } :=
  sameView_registers (fun u => { u with pending := p }) (fun _ _ _ => rfl) le_rfl le_rfl h

theorem sameView_retire {s t : State} (op : Byte) (o : CmdOutcome) (h : State.sameView s t) :
    State.sameView (State.retire op o s) (State.retire op o t) :=
  sameView_registers (State.retire op o) (fun _ _ _ => rfl) le_rfl le_rfl h

theorem sameView_applyReset {s t : State} (h : State.sameView s t) :
    State.sameView (State.applyReset s) (State.applyReset t) :=
  sameView_registers State.applyReset (fun _ _ _ => rfl) (Nat.zero_le _) (Nat.zero_le _) h

theorem sameView_clearResults {s t : State} (op : Byte) (h : State.sameView s t) :
    State.sameView (State.clearResults op s) (State.clearResults op t) :=
  sameView_registers (State.clearResults op) (fun _ _ _ => rfl) le_rfl le_rfl h

theorem sameView_raiseMalformedHex {s t : State} (op : Byte) (f : List FaultCode) (h : State.sameView s t) :
    State.sameView (State.raiseMalformedHex op f s) (State.raiseMalformedHex op f t) :=
  sameView_registers (State.raiseMalformedHex op f) (fun _ _ _ => rfl) le_rfl (Nat.zero_le _) h

theorem sameView_raiseInvalidFrame {s t : State} (op : Byte) (f : List FaultCode) (h : State.sameView s t) :
    State.sameView (State.raiseInvalidFrame op f s) (State.raiseInvalidFrame op f t) :=
  sameView_registers (State.raiseInvalidFrame op f) (fun _ _ _ => rfl) le_rfl le_rfl h

theorem sameView_populate {s t : State} (k : FrameCmd) (b : List Byte) (h : State.sameView s t) :
    State.sameView (State.populate k b s) (State.populate k b t) :=
  sameView_registers (State.populate k b) (fun _ _ _ => rfl) le_rfl le_rfl h

/-- A 16-bit length is at most the number it was made from, wrapped or not. -/
theorem toNat_ofNat16_le (n : Nat) : (BitVec.ofNat 16 n).toNat ≤ n :=
  (BitVec.toNat_ofNat n 16).trans_le (Nat.mod_le n _)

theorem sameView_putText {s t : State} (l : List Byte) (h : State.sameView s t) :
    State.sameView (State.putText l s) (State.putText l t) := by
  obtain ⟨m, n, rfl, -, hbytes⟩ := sameView_cases h
  exact ⟨rfl, readSeq_writeSeq_congr _ _ l (toNat_ofNat16_le _), hbytes⟩

theorem sameView_putBytes {s t : State} (b : List Byte) (h : State.sameView s t) :
    State.sameView (State.putBytes b s) (State.putBytes b t) := by
  obtain ⟨m, n, rfl, htext, -⟩ := sameView_cases h
  exact ⟨rfl, htext, readSeq_writeSeq_congr _ _ b (toNat_ofNat16_le _)⟩

theorem sameView_appendChar {s t : State} (c : Byte) (h : State.sameView s t) :
    State.sameView (State.appendChar c s) (State.appendChar c t) := by
  obtain ⟨m, n, rfl, htext, hbytes⟩ := sameView_cases h
  have hlen : (s.tlen + 1).toNat ≤ s.tlen.toNat + 1 := by bv_omega
  exact ⟨rfl, readSeq_write_congr c htext hlen, hbytes⟩

/-! ### The host's view under the commands -/

theorem sameView_hexDecodeOp {s t : State} (h : State.sameView s t) :
    State.sameView (hexDecodeOp s) (hexDecodeOp t) := by
  obtain ⟨-, htext, -⟩ := id h
  have hclear := sameView_clearResults Opc.hexDecode h
  simp only [hexDecodeOp, htext]
  cases hexDecode (State.text t) with
  | malformed f => exact sameView_raiseMalformedHex _ f hclear
  | ok b =>
    exact sameView_registers (fun u => { u with resStatus := resStatusWord Opc.hexDecode false false false .ok })
      (fun _ _ _ => rfl) le_rfl le_rfl (sameView_putBytes b hclear)

theorem sameView_frameOp {s t : State} (k : FrameCmd) (h : State.sameView s t) :
    State.sameView (frameOp k s) (frameOp k t) := by
  obtain ⟨-, htext, -⟩ := id h
  have hclear := sameView_clearResults k.opcode h
  simp only [frameOp, htext]
  cases hexDecode (State.text t) with
  | malformed f => exact sameView_raiseMalformedHex _ f hclear
  | ok b =>
    dsimp only
    split
    · exact sameView_raiseInvalidFrame _ _ (sameView_putBytes b hclear)
    · exact sameView_populate k b (sameView_putBytes b hclear)

/-- Whether the text buffer is full is in the view. -/
theorem sameView_full {s t : State} (h : State.sameView s t) :
    s.tlen.toNat = s.cfg.textMax ↔ t.tlen.toNat = t.cfg.textMax := by
  obtain ⟨m, n, rfl, -, -⟩ := sameView_cases h
  rfl

/-- The outcome `y` answers every next state of `x` with one in its view. -/
def sameOutcome (x y : Host.Outcome State Fault Refusal) : Prop :=
  ∀ s', x = .next s' → ∃ t', y = .next t' ∧ State.sameView s' t'

theorem sameOutcome_next {s t : State} (h : State.sameView s t) : sameOutcome (.next s) (.next t) := by
  rintro _ ⟨⟩
  exact ⟨t, rfl, h⟩

theorem sameOutcome_retire {s t : State} (op : Byte) (o : CmdOutcome) (h : State.sameView s t) :
    sameOutcome (.next (State.retire op o s)) (.next (State.retire op o t)) :=
  sameOutcome_next (sameView_retire op o h)

theorem exec_txtPush_sameOutcome {s t : State} (c : Byte) (h : State.sameView s t) :
    sameOutcome (exec (.txtPush c) s) (exec (.txtPush c) t) := by
  by_cases hfull : s.tlen.toNat = s.cfg.textMax
  · rw [exec_txtPush_full s c hfull, exec_txtPush_full t c ((sameView_full h).mp hfull)]
    exact sameOutcome_retire _ _ h
  · rw [exec_txtPush_room s c hfull, exec_txtPush_room t c ((sameView_full h).not.mp hfull)]
    exact sameOutcome_retire _ _ (sameView_appendChar c h)

/-- No command carries a difference in the buffers' tails into the view: it reads the buffers through the text
alone. -/
theorem exec_sameOutcome {s t : State} (i : Instr) (h : State.sameView s t) :
    sameOutcome (exec i s) (exec i t) := by
  cases hi : Spec.isDecode i with
  | true =>
    obtain hx | ⟨k, hx⟩ := exec_decode hi <;> rw [hx s, hx t]
    · exact sameOutcome_retire _ _ (sameView_hexDecodeOp h)
    · exact sameOutcome_retire _ _ (sameView_frameOp k h)
  | false =>
    cases i with
    | hexDecode | frmHeader | frmPayload | frmValidate | frmFull => exact nomatch hi
    | nop => exact sameOutcome_retire _ _ h
    | srst => exact sameOutcome_retire _ _ (sameView_applyReset h)
    | txtClear =>
      exact sameOutcome_retire _ _
        (sameView_registers (fun u => { u with tlen := 0 }) (fun _ _ _ => rfl) (Nat.zero_le _) le_rfl h)
    | txtPush c => exact exec_txtPush_sameOutcome c h
    | txtSanitize =>
      obtain ⟨-, htext, -⟩ := id h
      rw [exec_txtSanitize, exec_txtSanitize, htext]
      exact sameOutcome_retire _ _ (sameView_putText _ h)
    | csumClear =>
      exact sameOutcome_retire _ _
        (sameView_registers (fun u => { u with csum := 0 }) (fun _ _ _ => rfl) le_rfl le_rfl h)
    | csumByte b =>
      exact sameOutcome_retire _ _
        (sameView_registers (fun u => { u with csum := csumStep u.csum b }) (fun _ _ _ => rfl) le_rfl le_rfl h)
    | crcInit v =>
      exact sameOutcome_retire _ _
        (sameView_registers (fun u => { u with crc := v }) (fun _ _ _ => rfl) le_rfl le_rfl h)
    | crcByte b =>
      exact sameOutcome_retire _ _
        (sameView_registers (fun u => { u with crc := crcStep u.crc b }) (fun _ _ _ => rfl) le_rfl le_rfl h)

/-! ### The host's view along a step -/

theorem runWord_sameOutcome {s t : State} (w : Word) (h : State.sameView s t) :
    sameOutcome (runWord w s) (runWord w t) := by
  cases hd : decode w with
  | legal i =>
    rw [runWord_legal hd, runWord_legal hd]
    exact exec_sameOutcome i h
  | illegal op =>
    rw [runWord_illegal hd, runWord_illegal hd]
    exact sameOutcome_retire _ _ h

theorem runEvent_sameOutcome {s t : State} (e : HostEvent) (h : State.sameView s t) :
    sameOutcome (runEvent e s) (runEvent e t) := by
  cases e with
  | command w => exact runWord_sameOutcome w h
  | reset x => exact sameOutcome_next (sameView_applyReset h)

/-- With nothing waiting, a step answers the same state. -/
theorem step_idle {s : State} (h : s.pending = []) : step s = .next s := by
  simp only [step, takeEvent, h]

/-- With an event waiting, a step is the oldest event's effect with that event taken. -/
theorem step_event {s : State} {e : HostEvent} {rest : List HostEvent} (h : s.pending = e :: rest) :
    step s = runEvent e { s with pending := rest } := by
  simp only [step, takeEvent, h]

theorem step_sameOutcome {s t : State} (h : State.sameView s t) : sameOutcome (step s) (step t) := by
  have hpending : s.pending = t.pending := by
    obtain ⟨m, n, rfl, -, -⟩ := sameView_cases h
    rfl
  cases hp : t.pending with
  | nil =>
    rw [step_idle (hpending.trans hp), step_idle hp]
    exact sameOutcome_next h
  | cons e rest =>
    rw [step_event (hpending.trans hp), step_event hp]
    exact runEvent_sameOutcome e (sameView_withPending rest h)

/-! ### What the host reads in one view -/

theorem readPort_sameView {s t : State} (h : State.sameView s t) (a : Half) : readPort s a = readPort t a := by
  obtain ⟨m, n, rfl, htext, hbytes⟩ := sameView_cases h
  unfold readPort
  split
  · rfl
  · split
    · rw [windowRead_eq, windowRead_eq, hbytes]
    · rw [windowRead_eq, windowRead_eq, htext]

end Sys2Proof.Machine

namespace Sys2Proof

open Sys2Proof.Machine

/-- Settles O53: the view fixes every read, and a step reads the buffers through the text alone. -/
theorem bufferTailsAreNeverObserved : Obligations.BufferTailsAreNeverObserved :=
  fun _ _ h => ⟨readPort_sameView h, step_sameOutcome h⟩

end Sys2Proof
end

section
/-!
PROOFS. The encoding (30_encoding.md R60-R70): the encoder and the decoder undo each other, the three forms of legality
agree, and what the assembler's statements expand to.
-/
namespace Sys2Proof

/-! ### Decode against encode (R67, R69) -/

/-- The decoder reads a command back from its word. -/
@[simp] theorem decode_encode (i : Instr) : decode (encode i) = .legal i := by
  cases i <;> simp [encode, decode, decodeNone, decodeB8, decodeImm16]

/-- A word that decodes to a command is that command's word: the fields its class does not use are zero. -/
theorem eq_encode_of_decode {w : Word} {i : Instr} (h : decode w = .legal i) : w = encode i := by
  obtain ⟨j, hd, henc⟩ | ⟨f, hd, henc⟩ | ⟨f, hd, henc⟩ | hd := decode_cases w <;> rw [hd] at h
  · obtain ⟨⟨hb, hv⟩, rfl⟩ := (decodeNone_legal w j i).mp h
    rw [henc, ← hb, ← hv, ofFields_fields]
  · obtain ⟨hv, rfl⟩ := (decodeB8_legal w _ i).mp h
    rw [henc, ← hv, ofFields_fields]
  · obtain ⟨hb, rfl⟩ := (decodeImm16_legal w _ i).mp h
    rw [henc, ← hb, ofFields_fields]
  · exact nomatch h

/-- Settles O2: each direction is one of the two round trips. -/
theorem decodeAndEncodeAgree : Obligations.DecodeAndEncodeAgree :=
  fun i _ => ⟨eq_encode_of_decode, fun h => h ▸ decode_encode i⟩

/-- Settles O1, by running the decoder on each word. -/
theorem sampleWordsDecode : Obligations.SampleWordsDecode := by
  unfold Obligations.SampleWordsDecode
  decide

/-! ### The rows' match and mask, field by field (R63) -/

theorem ofFields_inj {v v' : Half} {b b' op op' : Byte} :
    Word.ofFields v b op = Word.ofFields v' b' op' ↔ v = v' ∧ b = b' ∧ op = op' := by
  constructor
  · intro h
    refine ⟨?_, ?_, ?_⟩
    · simpa using congrArg Word.imm16 h
    · simpa using congrArg Word.b8 h
    · simpa using congrArg Word.opc h
  · rintro ⟨rfl, rfl, rfl⟩
    rfl

theorem ofFields_and (v v' : Half) (b b' op op' : Byte) :
    Word.ofFields v b op &&& Word.ofFields v' b' op' = Word.ofFields (v &&& v') (b &&& b') (op &&& op') :=
  BitVec.and_append.trans (congrArg (· ++ (op &&& op')) BitVec.and_append)

theorem setWidth_opcode (op : Byte) : op.setWidth 32 = Word.ofFields 0 0 op := by
  simp [Word.ofFields, BitVec.setWidth_eq_append]

/-- The fields of a word that are no operand of the class are zero. -/
def OperandClass.unusedZero : OperandClass → Word → Prop
  | .none, w => Word.b8 w = 0 ∧ Word.imm16 w = 0
  | .b8, w => Word.imm16 w = 0
  | .imm16, w => Word.b8 w = 0

theorem mask_none : OperandClass.none.mask = Word.ofFields (.allOnes 16) (.allOnes 8) (.allOnes 8) := by decide
theorem mask_b8 : OperandClass.b8.mask = Word.ofFields (.allOnes 16) 0#8 (.allOnes 8) := by decide
theorem mask_imm16 : OperandClass.imm16.mask = Word.ofFields 0#16 (.allOnes 8) (.allOnes 8) := by decide

/-- A word with the fields a class does not use cleared is the bare opcode exactly when those fields are zero. -/
theorem and_mask_eq_opcode (c : OperandClass) (w : Word) (op : Byte) :
    w &&& c.mask = op.setWidth 32 ↔ Word.opc w = op ∧ c.unusedZero w := by
  rw [setWidth_opcode]
  nth_rw 1 [← ofFields_fields w]
  cases c with
  | none =>
    rw [mask_none, ofFields_and, ofFields_inj]
    simp only [OperandClass.unusedZero, BitVec.and_allOnes, BitVec.ofNat_eq_ofNat]
    tauto
  | b8 =>
    rw [mask_b8, ofFields_and, ofFields_inj]
    simp only [OperandClass.unusedZero, BitVec.and_allOnes, BitVec.and_zero, BitVec.ofNat_eq_ofNat, true_and]
    tauto
  | imm16 =>
    rw [mask_imm16, ofFields_and, ofFields_inj]
    simp only [OperandClass.unusedZero, BitVec.and_allOnes, BitVec.and_zero, BitVec.ofNat_eq_ofNat, true_and]
    tauto

theorem accepts_iff (r : OpcodeRow) (w : Word) :
    r.accepts w = true ↔ Word.opc w = r.opc ∧ r.cls.unusedZero w := by
  rw [OpcodeRow.accepts, beq_iff_eq, and_mask_eq_opcode]

/-- No word satisfies two rows, because the rows' opcodes differ. -/
theorem row_unique {w : Word} {r q : OpcodeRow} (hr : r ∈ opcodeRows) (hq : q ∈ opcodeRows)
    (har : r.accepts w = true) (haq : q.accepts w = true) : r = q := by
  obtain ⟨hropc, -⟩ := (accepts_iff r w).mp har
  obtain ⟨hqopc, -⟩ := (accepts_iff q w).mp haq
  exact List.inj_on_of_nodup_map opcodeRows_nodup hr hq (hropc.symm.trans hqopc)

theorem legal_iff (w : Word) :
    legal w = true ↔ ∃ r ∈ opcodeRows, Word.opc w = r.opc ∧ r.cls.unusedZero w := by
  simp only [legal, List.any_eq_true, accepts_iff]

/-! ### The class form of legality (R63) -/

/-- The opcodes the opcode map gives a class. -/
def OperandClass.opcodes (c : OperandClass) : List Byte :=
  (opcodeRows.filter (fun r => r.cls = c)).map OpcodeRow.opc

theorem legal_iff_class (w : Word) :
    legal w = true ↔ ∃ c : OperandClass, Word.opc w ∈ c.opcodes ∧ c.unusedZero w := by
  rw [legal_iff]
  constructor
  · rintro ⟨r, hr, hopc, hzero⟩
    exact ⟨r.cls, List.mem_map.mpr ⟨r, List.mem_filter.mpr ⟨hr, by simp⟩, hopc.symm⟩, hzero⟩
  · rintro ⟨c, hopc, hzero⟩
    simp only [OperandClass.opcodes, List.mem_map, List.mem_filter, decide_eq_true_eq] at hopc
    obtain ⟨r, ⟨hr, rfl⟩, hopc⟩ := hopc
    exact ⟨r, hr, hopc.symm, hzero⟩

/-- Bits 31:8 are zero exactly when both operand fields are. -/
theorem upper_eq_zero_iff (w : Word) : w.extractLsb' 8 24 = 0 ↔ Word.b8 w = 0 ∧ Word.imm16 w = 0 := by
  simp only [Word.b8, Word.imm16, BitVec.toNat_eq, BitVec.extractLsb'_toNat, Nat.shiftRight_eq_div_pow,
    BitVec.ofNat_eq_ofNat, BitVec.toNat_ofNat, Nat.zero_mod]
  omega

theorem legal_iff_legalByClass (w : Word) : legal w = true ↔ Spec.legalByClass w := by
  rw [legal_iff_class, Spec.legalByClass, upper_eq_zero_iff]
  constructor
  · rintro ⟨c, hopc, hzero⟩
    cases c with
    | none => exact .inl ⟨hopc, hzero⟩
    | b8 => exact .inr (.inl ⟨hopc, hzero⟩)
    | imm16 => exact .inr (.inr ⟨List.mem_singleton.mp hopc, hzero⟩)
  · rintro (h | h | ⟨hopc, hzero⟩)
    · exact ⟨.none, h⟩
    · exact ⟨.b8, h⟩
    · exact ⟨.imm16, List.mem_singleton.mpr hopc, hzero⟩

/-! ### The words the decoder takes -/

/-- A command's word is accepted by the command's row. -/
theorem legal_encode (i : Instr) : legal (encode i) = true := by
  rw [legal_iff]
  cases i <;> simp [opcodeRows, encode, OperandClass.unusedZero]

/-- Every row of the opcode map has its arm in the decoder, with the same check of the unused fields. -/
theorem exists_decode_of_legal {w : Word} (h : legal w = true) : ∃ i, decode w = .legal i := by
  obtain ⟨r, hr, hopc, hzero⟩ := (legal_iff w).mp h
  simp only [opcodeRows, List.mem_cons, List.not_mem_nil, or_false] at hr
  rcases hr with rfl | rfl | rfl | rfl | rfl | rfl | rfl | rfl | rfl | rfl | rfl | rfl | rfl | rfl <;>
    simp only [OperandClass.unusedZero] at hopc hzero <;>
    simp [decode, decodeNone, decodeB8, decodeImm16, hopc, hzero]

theorem exists_decode_iff_legal (w : Word) : (∃ i, decode w = .legal i) ↔ legal w = true := by
  constructor
  · rintro ⟨i, hi⟩
    rw [eq_encode_of_decode hi]
    exact legal_encode i
  · exact exists_decode_of_legal

/-- Settles O3: the decoder and the class form each agree with the match/mask form, and the rows' opcodes differ. -/
theorem decodeTakesExactlyTheLegalWords : Obligations.DecodeTakesExactlyTheLegalWords :=
  ⟨fun w => ⟨(exists_decode_iff_legal w).trans (legal_iff_legalByClass w), legal_iff_legalByClass w⟩,
    fun _ _ _ => row_unique⟩

end Sys2Proof

namespace Sys2Proof

open Sys2Proof.Machine

/-! ### Assembly (R69, R70) -/

/-- Settles O57: a statement's words are encodings, and an encoding is legal and decodes to its command. -/
theorem assembledWordsAreLegal : Obligations.AssembledWordsAreLegal := by
  intro a
  constructor
  · intro w hw
    obtain ⟨i, -, rfl⟩ := List.mem_map.mp hw
    exact (legal_iff_legalByClass _).mp (legal_encode i)
  · rw [AsmStmt.words, List.map_map]
    exact List.map_congr_left (fun i _ => decode_encode i)

/-- Settles O58: a number in range passes its reader, and every other clause is one case of a reader. -/
theorem assemblerRefusesBadOperands : Obligations.AssemblerRefusesBadOperands := by
  intro f g i n o o' os
  refine ⟨?_, ?_, rfl, rfl, rfl, rfl, rfl, rfl⟩
  · simp only [stmtByte, AsmOperand.asByte, byteOfNat]
    split <;> rfl
  · simp only [stmtHalf, AsmOperand.asHalf]
    split <;> rfl

end Sys2Proof

namespace Sys2Proof.Machine

/-! ### TXT.LOAD (R70): TXT.CLEAR, then one TXT.PUSH per character (40_hexcodec.md R86, R87) -/

/-- Append a run of characters to the text. -/
def State.appendText (cs : List Byte) (s : State) : State :=
  { s with tbuf := Memory.writeSeq s.tbuf s.tlen.toNat cs, tlen := s.tlen + BitVec.ofNat 16 cs.length }

@[simp] theorem appendText_nil (s : State) : State.appendText [] s = s := by
  simp [State.appendText, Memory.writeSeq]

/-- A run is appended character by character, as long as TLEN does not wrap. -/
theorem appendText_cons (c : Byte) (cs : List Byte) {s : State} (h : s.tlen.toNat < 65535) :
    State.appendText (c :: cs) s = State.appendText cs (State.appendChar c s) := by
  have hnext : (s.tlen + 1).toNat = s.tlen.toNat + 1 := by bv_omega
  have hlen : s.tlen + BitVec.ofNat 16 (cs.length + 1) = s.tlen + 1 + BitVec.ofNat 16 cs.length := by bv_omega
  simp only [State.appendText, appendChar_tbuf, appendChar_tlen, hnext, List.length_cons, hlen, Memory.writeSeq]
  rfl

/-- A run appended to the empty text replaces the text. -/
theorem appendText_empty (cs : List Byte) (s : State) :
    State.appendText cs { s with tlen := 0 } = State.putText cs s := by
  simp [State.appendText, State.putText]

theorem runWord_encode (i : Instr) (s : State) : runWord (encode i) s = exec i s :=
  runWord_legal (decode_encode i) s

/-- Pushing characters that fit appends them all and changes nothing else but CMDSTAT, which the last push writes. -/
theorem issueAll_txtPush (cs : List Byte) (op : Byte) (s : State) (hmax : s.cfg.textMax ≤ 32768)
    (hfit : s.tlen.toNat + cs.length ≤ s.cfg.textMax) :
    Spec.issueAll ((cs.map Instr.txtPush).map encode) (State.retire op .ok s)
      = .next (State.retire (if cs = [] then op else Opc.txtPush) .ok (State.appendText cs s)) := by
  induction cs generalizing s op with
  | nil => simp [Spec.issueAll]
  | cons c cs ih =>
    rw [List.length_cons] at hfit
    have hpush : runWord (encode (.txtPush c)) (State.retire op .ok s)
        = .next (State.retire Opc.txtPush .ok (State.appendChar c s)) :=
      (runWord_encode _ _).trans (exec_txtPush_room _ c (show s.tlen.toNat ≠ s.cfg.textMax by omega))
    have hfit' : (s.tlen + 1).toNat + cs.length ≤ s.cfg.textMax := by bv_omega
    rw [List.map_cons, List.map_cons, issueAll_cons _ hpush, ih Opc.txtPush (State.appendChar c s) hmax hfit',
      appendText_cons c cs (by omega), ite_self, if_neg (List.cons_ne_nil c cs)]

/-- A text that fits, loaded: TBUF and TLEN hold it, and CMDSTAT reports the last word. -/
theorem issueAll_txtLoad (cs : List Byte) (s : State) (hmax : s.cfg.textMax ≤ 32768)
    (hfit : cs.length ≤ s.cfg.textMax) :
    Spec.issueAll (AsmStmt.words (.txtLoad cs)) s
      = .next (State.retire (if cs = [] then Opc.txtClear else Opc.txtPush) .ok (State.putText cs s)) := by
  have hclear : runWord (encode .txtClear) s = .next (State.retire Opc.txtClear .ok { s with tlen := 0 }) :=
    runWord_encode _ s
  rw [AsmStmt.words, AsmStmt.expand, List.map_cons, issueAll_cons _ hclear,
    issueAll_txtPush cs Opc.txtClear { s with tlen := 0 } hmax (by simpa using hfit), appendText_empty]

end Sys2Proof.Machine

namespace Sys2Proof

open Sys2Proof.Machine

/-- Settles O59: the state after the load is known whole, and it has the text in TBUF from element 0. -/
theorem txtLoadFillsTheText : Obligations.TxtLoadFillsTheText := by
  rintro s cs ⟨-, -, hmax⟩ hfit
  refine ⟨_, issueAll_txtLoad cs s hmax hfit, ?_, ?_⟩
  · rw [text_retire, text_putText]
    omega
  · split <;> rfl

end Sys2Proof
end

section
/-!
PROOFS. The hex decoder's pure functions (40_hexcodec.md R80-R85): the character classes, `strip0x` and the spec's
loop, the sanitized text, and what a text decodes to.
-/
namespace Sys2Proof.Machine

/-! ### The value of a hex digit (R81) -/

theorem toNat_hexVal_digit {c : Byte} (hlo : 0x30 ≤ c.toNat) (hhi : c.toNat ≤ 0x39) :
    (hexVal c).toNat = c.toNat - 0x30 := by
  rw [hexVal, if_pos (by bv_omega), BitVec.toNat_setWidth]
  bv_omega

theorem toNat_hexVal_upper {c : Byte} (hlo : 0x41 ≤ c.toNat) (hhi : c.toNat ≤ 0x46) :
    (hexVal c).toNat = c.toNat - 0x41 + 10 := by
  rw [hexVal, if_neg (by bv_omega), if_pos (by bv_omega), BitVec.toNat_setWidth]
  bv_omega

theorem toNat_hexVal_lower {c : Byte} (hlo : 0x61 ≤ c.toNat) (hhi : c.toNat ≤ 0x66) :
    (hexVal c).toNat = c.toNat - 0x61 + 10 := by
  rw [hexVal, if_neg (by bv_omega), if_neg (by bv_omega), BitVec.toNat_setWidth]
  bv_omega

/-! ### strip0x by position, as the spec's loop reads the text (R82) -/

/-- Position `k` of the text starts a `0x` or `0X` pair: the test of the spec's loop. -/
abbrev pairAt (s : List Byte) (k : Nat) : Prop :=
  k + 1 < s.length ∧ s.getD k 0 = 0x30 ∧ (s.getD (k + 1) 0 = 0x78 ∨ s.getD (k + 1) 0 = 0x58)

theorem pairAt_zero_iff (a b : Byte) (rest : List Byte) : pairAt (a :: b :: rest) 0 ↔ is0xPair a b = true := by
  simp [pairAt, is0xPair_iff]

theorem pairAt_cons_succ (a : Byte) (rest : List Byte) (k : Nat) : pairAt (a :: rest) (k + 1) ↔ pairAt rest k := by
  simp [pairAt]

theorem pairAt_drop_zero (s : List Byte) (i : Nat) : pairAt (s.drop i) 0 ↔ pairAt s i := by
  simp [pairAt, Nat.lt_sub_iff_add_lt, Nat.add_comm]

theorem strip0x_of_pairAt {s : List Byte} (h : pairAt s 0) : strip0x s = strip0x (s.drop 2) := by
  match s, h with
  | a :: b :: rest, h => simp [strip0x, (pairAt_zero_iff a b rest).mp h]

theorem strip0x_cons_of_not_pairAt {a : Byte} {rest : List Byte} (h : ¬ pairAt (a :: rest) 0) :
    strip0x (a :: rest) = a :: strip0x rest := by
  cases rest with
  | nil => rfl
  | cons b rest => simp only [strip0x, if_neg ((pairAt_zero_iff a b rest).not.mp h)]

/-- `strip0x` changes only a text with a pair in it. -/
theorem exists_pairAt_of_strip0x_ne {s : List Byte} (h : strip0x s ≠ s) : ∃ k, pairAt s k := by
  induction s with
  | nil => exact absurd rfl h
  | cons a rest ih =>
    by_cases hp : pairAt (a :: rest) 0
    · exact ⟨0, hp⟩
    · rw [strip0x_cons_of_not_pairAt hp] at h
      obtain ⟨k, hk⟩ := ih (fun hrest => h (congrArg (a :: ·) hrest))
      exact ⟨k + 1, (pairAt_cons_succ a rest k).mpr hk⟩

/-- The spec's loop, at position `i` with iterations left for the rest of the text, appends the rest's `strip0x` to
its output. -/
theorem strip0xLoop_eq (s : List Byte) (fuel i : Nat) (out : List Byte) (hfuel : s.length ≤ i + fuel) :
    Spec.strip0xLoop s fuel i out = out ++ strip0x (s.drop i) := by
  induction fuel generalizing i out with
  | zero => rw [List.drop_eq_nil_of_le (by omega), Spec.strip0xLoop, strip0x, List.append_nil]
  | succ fuel ih =>
    rw [Spec.strip0xLoop]
    by_cases hi : i < s.length
    · rw [if_pos hi]
      by_cases hp : pairAt s i
      · rw [if_pos hp, ih _ _ (by omega), strip0x_of_pairAt ((pairAt_drop_zero s i).mpr hp), List.drop_drop]
      · have hdrop : s.drop i = s.getD i 0 :: s.drop (i + 1) := by
          rw [List.drop_eq_getElem_cons hi, List.getD_eq_getElem _ _ hi]
        have hstrip : strip0x (s.drop i) = s.getD i 0 :: strip0x (s.drop (i + 1)) := by
          rw [hdrop, strip0x_cons_of_not_pairAt (hdrop ▸ (pairAt_drop_zero s i).not.mpr hp)]
        rw [if_neg hp, ih _ _ (by omega), hstrip, List.append_assoc, List.singleton_append]
    · rw [if_neg hi, List.drop_eq_nil_of_le (by omega), strip0x, List.append_nil]

/-! ### Sanitizing twice (R83) -/

/-- Sanitizing a sanitized text changes it only where the text still has a pair. -/
theorem exists_pairAt_of_sanitize_sanitize_ne {s : List Byte} (h : sanitize (sanitize s) ≠ sanitize s) :
    ∃ k, pairAt (sanitize s) k := by
  apply exists_pairAt_of_strip0x_ne
  intro hstrip
  apply h
  rw [sanitize, hstrip, List.filter_eq_self]
  exact fun c hc => by simp [(mem_sanitize hc).2]

/-! ### What a text decodes to (R84, R85) -/

theorem hexDecode_of_faultless {s : List Byte} (h : hexFaults (sanitize s) = []) :
    hexDecode s = .ok (hexPairs (sanitize s)) :=
  if_pos h

theorem hexDecode_of_faulty {s : List Byte} (h : hexFaults (sanitize s) ≠ []) :
    hexDecode s = .malformed (hexFaults (sanitize s)) :=
  if_neg h

/-- The sanitized form of a text that decodes holds hex digits only, so sanitizing leaves it. -/
theorem sanitize_sanitize_of_faultless {s : List Byte} (h : hexFaults (sanitize s) = []) :
    sanitize (sanitize s) = sanitize s :=
  sanitize_eq_self (fun c hc => isHexDigit_plain (((hexFaults_eq_nil _).mp h).2 c hc))

/-- A text that decodes to bytes decodes to the same bytes after sanitizing (R85). -/
theorem hexDecode_sanitize {s b : List Byte} (h : hexDecode s = .ok b) : hexDecode (sanitize s) = .ok b := by
  obtain ⟨hfaults, rfl⟩ := hexDecode_ok h
  have hfix := sanitize_sanitize_of_faultless hfaults
  rw [hexDecode_of_faultless (by rwa [hfix]), hfix]

/-- RES_FAULTS of a hex text is the spec's word: bit 0 for an odd length, bit 1 for a character that is no digit. -/
theorem faultBits_hexFaults (t : List Byte) : faultBits (hexFaults t) = Spec.hexFaultWord t := by
  have hany : (t.any (fun c => !isHexDigit c) = true) ↔ ∃ c ∈ t, isHexDigit c = false := by simp
  simp only [hexFaults, Spec.hexFaultWord, hany]
  split <;> split <;> decide

end Sys2Proof.Machine

namespace Sys2Proof

open Sys2Proof.Machine

/-- Settles O19: the classes are the model's comparisons on naturals, and each range of digits has its own value. -/
theorem characterClassesAreTheSpecs : Obligations.CharacterClassesAreTheSpecs :=
  fun c => ⟨isSep_iff c, isHexDigit_iff c, toNat_hexVal_digit, toNat_hexVal_upper, toNat_hexVal_lower⟩

/-- Settles O20: the loop from the text's first character. -/
theorem strip0xIsTheSpecsLoop : Obligations.Strip0xIsTheSpecsLoop := by
  intro s
  rw [strip0xLoop_eq s _ 0 [] (by omega), List.drop_zero, List.nil_append]

/-- Settles O21: `strip0x` is R82's loop, and the separators are R80's list. -/
theorem sanitizeRemovesSeparatorsAndPairs : Obligations.SanitizeRemovesSeparatorsAndPairs := by
  intro s
  refine ⟨?_, length_sanitize_le s, fun c hc => (mem_sanitize hc).2, sanitize_eq_self⟩
  have hsep (c : Byte) : (!isSep c) = decide (c.toNat ∉ [0x09, 0x0A, 0x0B, 0x0C, 0x0D, 0x20, 0x7C]) := by
    rw [decide_not, ← Bool.decide_coe (isSep c), decide_eq_decide.mpr (isSep_iff c)]
  rw [← strip0xIsTheSpecsLoop s, sanitize, funext hsep]

/-- Settles O22: the faults are none exactly when the length is even and every character a digit; then each byte is
its pair's, and otherwise the faults found are the answer. -/
theorem hexDecodeGivesBytesOrItsFaults : Obligations.HexDecodeGivesBytesOrItsFaults := by
  intro s
  rw [← hexFaults_eq_nil]
  constructor
  · intro h
    refine ⟨_, hexDecode_of_faultless h, length_hexPairs _, fun k hk => ?_⟩
    rw [getD_hexPairs _ _ (length_hexPairs (sanitize s) ▸ hk), toNat_hexByte]
  · intro h
    exact ⟨_, hexDecode_of_faulty h, h, mem_hexFaults _, mem_hexFaults_hexOdd _, mem_hexFaults_hexDigit _,
      faultBits_hexFaults _⟩

/-- Settles O23: a text that decodes has a sanitized form that sanitizing leaves; `00xx` is evaluated. -/
theorem sanitizedTextDecodesAlike : Obligations.SanitizedTextDecodesAlike :=
  ⟨fun _ _ => hexDecode_sanitize, by decide, by decide⟩

/-- Settles O24: a spelling holds no pair to strip, and its digits pair up to the bytes it spells. -/
theorem hexSpellingDecodesToItsBytes : Obligations.HexSpellingDecodesToItsBytes := by
  intro t b h
  obtain ⟨hdigits, heven, hpairs⟩ := h.filter
  have hsan : sanitize t = t.filter (fun c => !isSep c) := by rw [sanitize, strip0x_eq_self h.plain]
  rw [← hsan] at hdigits heven hpairs
  rw [hexDecode_of_faultless ((hexFaults_eq_nil _).mpr ⟨heven, hdigits⟩), hpairs]

end Sys2Proof
end

section
/-!
PROOFS. The hex decoder's four commands (40_hexcodec.md R86-R89): the words that decode to them, and their whole
effect.
-/
namespace Sys2Proof

/-- A word of class b8, written as the spec does (30_encoding.md R69): `(b << 8) | op`. -/
theorem opcode_or_operand (op b : Byte) :
    op.setWidth 32 ||| (b.setWidth 32 <<< 8) = Word.ofFields 0 b op := by
  apply BitVec.eq_of_getLsbD_eq
  intro i hi
  simp only [Word.ofFields, BitVec.getLsbD_or, BitVec.getLsbD_shiftLeft, BitVec.getLsbD_setWidth,
    BitVec.getLsbD_append]
  by_cases h : i < 8
  · simp [h, hi]
  · by_cases h2 : i - 8 < 8
    · simp [h, h2, hi, BitVec.getLsbD_of_ge op i (by omega), show i - 8 < 32 by omega]
    · simp [h, h2, BitVec.getLsbD_of_ge op i (by omega), BitVec.getLsbD_of_ge b (i - 8) (by omega)]

end Sys2Proof

namespace Sys2Proof.Machine

/-- A run written from element 0 is there, and every other element as before. -/
theorem holdsFromZero_writeSeq (m : Memory) (bs : List Byte) :
    Spec.holdsFromZero m (Memory.writeSeq m 0 bs) bs := by
  intro a
  simp [read_writeSeq]

/-- MalformedHex leaves a bare result with the faults of the sanitized text, and no bytes (60_exceptions.md R143). -/
theorem raiseMalformedHex_eq_bareResult {s : State} {f : List FaultCode} (op : Byte)
    (h : hexDecode (State.text s) = .malformed f) :
    State.raiseMalformedHex op f (State.clearResults op s)
      = { Spec.bareResult (resStatusWord op false false false .malformedHex)
            (Spec.hexFaultWord (sanitize (State.text s))) s with bcount := 0 } := by
  obtain ⟨rfl, -⟩ := hexDecode_malformed h
  rw [← faultBits_hexFaults]
  rfl

end Sys2Proof.Machine

namespace Sys2Proof

open Sys2Proof.Machine

/-- Settles O14: with TLEN 0 no element is inside the window. -/
theorem txtClearEmptiesTheText : Obligations.TxtClearEmptiesTheText := by
  refine ⟨decode_encode .txtClear, fun s => ⟨exec_txtClear s, fun i hi => ?_⟩⟩
  rw [readPort_tbufWindow _ hi]
  exact if_neg (Nat.not_lt_zero i)

/-- Settles O15: one equation of TXT.PUSH for a full buffer and one for a buffer with room. -/
theorem txtPushAppendsOrIsFull : Obligations.TxtPushAppendsOrIsFull := by
  refine ⟨fun c => ?_, fun c s => ⟨exec_txtPush_full s c, fun hroom => ?_⟩⟩
  · exact (congrArg decode (opcode_or_operand Opc.txtPush c)).trans (decode_encode (.txtPush c))
  · exact ⟨_, exec_txtPush_room s c hroom, fun a => read_write _ _ a c⟩

/-- Settles O16: below a TEXT_MAX of at most 32768 the 16-bit TLEN does not wrap. -/
theorem txtPushExtendsTheText : Obligations.TxtPushExtendsTheText := by
  rintro c s ⟨-, -, hmax⟩ hroom
  have htlen : (s.tlen + 1).toNat = s.tlen.toNat + 1 := by bv_omega
  refine ⟨_, exec_txtPush_room s c hroom.ne, ?_, htlen, ?_⟩
  · rw [text_retire, text_appendChar s c (by omega)]
  · exact htlen.trans_le hroom

/-- Settles O18: the sanitized text, never longer than the text, is written from element 0. -/
theorem txtSanitizeReplacesTheText : Obligations.TxtSanitizeReplacesTheText := by
  refine ⟨decode_encode .txtSanitize, fun s => ?_⟩
  have hlen : (sanitize (State.text s)).length ≤ s.tlen.toNat := text_length s ▸ length_sanitize_le (State.text s)
  exact ⟨_, exec_txtSanitize s, holdsFromZero_writeSeq _ _, text_putText s _ (hlen.trans_lt s.tlen.isLt), hlen,
    exists_pairAt_of_sanitize_sanitize_ne, fun b => hexDecode_sanitize⟩

/-- Settles O25: HEX.DECODE either raises MalformedHex or puts the decoded bytes, which BBUF holds. -/
theorem hexDecodeCommandFillsBbuf : Obligations.HexDecodeCommandFillsBbuf := by
  refine ⟨decode_encode .hexDecode, fun s => ⟨_, exec_hexDecode s, ?_⟩⟩
  obtain ⟨f, hdec, hop⟩ | ⟨b, hdec, hop⟩ := hexDecodeOp_cases s <;> rw [hdec, hop]
  · rw [raiseMalformedHex_eq_bareResult _ hdec]
    rfl
  · exact ⟨holdsFromZero_writeSeq _ b, bytes_putBytes s b (decoded_length_lt hdec), rfl,
      fun htlen => decodedBytesFitBbuf s b htlen hdec⟩

end Sys2Proof
end

section
/-!
PROOFS. The checksum (41_checksum.md): its value as a natural number, the stream of commands that computes it, and
what one byte changes.
-/
namespace Sys2Proof.Machine

/-- One accumulation is R95's sum of two unsigned bytes mod 256. -/
theorem csumStep_eq_ofNat (s b : Byte) : csumStep s b = BitVec.ofNat 8 ((s.toNat + b.toNat) % 256) :=
  BitVec.eq_of_toNat_eq (by simp [csumStep])

/-- The sum form of the checksum (R96). -/
theorem toNat_checksum (bs : List Byte) : (checksum bs).toNat = (bs.map BitVec.toNat).sum % 256 := by
  induction bs with
  | nil => rfl
  | cons b bs ih => rw [checksum_cons, BitVec.toNat_add, ih, List.map_cons, List.sum_cons, Nat.add_mod_mod]

/-- The order of the bytes plays no part (R99). -/
theorem checksum_eq_of_perm {as bs : List Byte} (h : as.Perm bs) : checksum as = checksum bs :=
  BitVec.eq_of_toNat_eq (by rw [toNat_checksum, toNat_checksum, (h.map BitVec.toNat).sum_eq])

/-- The checksum tells any two values of one byte apart: every other term of the sum cancels. -/
theorem checksum_inj_at (as bs : List Byte) (x y : Byte) :
    checksum (as ++ x :: bs) = checksum (as ++ y :: bs) ↔ x = y := by
  rw [checksum_append, checksum_append, checksum_cons, checksum_cons, add_right_inj, add_left_inj]

/-- A CSUM.BYTE per byte folds the bytes into CSUM, as R96 does from 0; CMDSTAT keeps the earlier command's opcode only
when there is no byte. -/
theorem issueAll_csumBytes (bs : List Byte) (op : Byte) (s : State) :
    Spec.issueAll (AsmStmt.words (.csumBytes bs)) (State.retire op .ok s)
      = .next (State.retire (if bs = [] then op else Opc.csumByte) .ok { s with csum := bs.foldl csumStep s.csum }) := by
  simp only [AsmStmt.words, AsmStmt.expand]
  induction bs generalizing op s with
  | nil => simp [Spec.issueAll]
  | cons b bs ih =>
    have hbyte : runWord (encode (.csumByte b)) (State.retire op .ok s)
        = .next (State.retire Opc.csumByte .ok { s with csum := csumStep s.csum b }) :=
      runWord_encode _ _
    rw [List.map_cons, List.map_cons, issueAll_cons _ hbyte, ih, ite_self, if_neg (List.cons_ne_nil b bs),
      List.foldl_cons]

end Sys2Proof.Machine

namespace Sys2Proof

open Sys2Proof.Machine

/-- Settles O27: CSUM.CLEAR's equation, with CMDSTAT's word for outcome OK evaluated. -/
theorem csumClearZeroesCsum : Obligations.CsumClearZeroesCsum :=
  ⟨decode_encode .csumClear, exec_csumClear⟩

/-- Settles O28: CSUM.BYTE's equation, its accumulation taken on natural numbers. -/
theorem csumByteAddsModulo256 : Obligations.CsumByteAddsModulo256 := by
  refine ⟨fun b => ?_, fun b s => ?_⟩
  · exact (congrArg decode (opcode_or_operand Opc.csumByte b)).trans (decode_encode (.csumByte b))
  · rw [exec_csumByte, csumStep_eq_ofNat]
    rfl

/-- Settles O29: the laws are those of the sum mod 256. -/
theorem checksumIsTheSumModulo256 : Obligations.ChecksumIsTheSumModulo256 := by
  refine fun as bs => ⟨toNat_checksum as, checksum_eq_of_perm, ?_, ?_⟩
  · rw [checksum_append, BitVec.toNat_add]
  · rw [checksum_append, checksum_cons, checksum_nil, add_zero, add_zero]

/-- Settles O30: CSUM.CLEAR, then the bytes folded into 0, which is the checksum. -/
theorem csumStreamComputesTheChecksum : Obligations.CsumStreamComputesTheChecksum := by
  intro s bs
  have hclear : runWord 0x00000020#32 s = .next (State.retire Opc.csumClear .ok { s with csum := 0 }) :=
    runWord_encode .csumClear s
  rw [issueAll_cons _ hclear, issueAll_csumBytes]
  split <;> rfl

/-- Settles O49: equal checksums would make the altered bytes equal. -/
theorem oneAlteredByteFailsTheChecksum : Obligations.OneAlteredByteFailsTheChecksum :=
  fun as bs x y hne => (checksum_inj_at as bs x y).not.mpr hne

end Sys2Proof
end

section
/-!
PROOFS. The CRC (42_crc.md): its step on natural numbers, why a message followed by its own CRC leaves zero, and the
stream of commands that computes it.
-/
namespace Sys2Proof

/-- A word of class imm16, written as the spec does (30_encoding.md R69): `(v << 16) | op`. -/
theorem opcode_or_imm16 (op : Byte) (v : Half) :
    op.setWidth 32 ||| (v.setWidth 32 <<< 16) = Word.ofFields v 0 op := by
  apply BitVec.eq_of_getLsbD_eq
  intro i hi
  simp only [Word.ofFields, BitVec.getLsbD_or, BitVec.getLsbD_shiftLeft, BitVec.getLsbD_setWidth,
    BitVec.getLsbD_append]
  by_cases hop : i < 8
  · simp [hop, hi, show i < 16 by omega]
  · by_cases himm : i < 16
    · simp [hop, himm, show i - 8 < 8 by omega, BitVec.getLsbD_of_ge op i (by omega)]
    · simp [hop, himm, show ¬ i - 8 < 8 by omega, show i - 16 < 32 by omega, hi, Nat.sub_sub,
        BitVec.getLsbD_of_ge op i (by omega)]

end Sys2Proof

namespace Sys2Proof.Machine

/-! ### `crcStep` against the spec's loop on natural numbers (R100) -/

/-- The spec's mask to 16 bits is the reduction a 16-bit value makes. -/
theorem and_halfMask (n : Nat) : n &&& 0xFFFF = n % 2 ^ 16 :=
  Nat.and_two_pow_sub_one_eq_mod n 16

/-- One iteration, masked after its shift and exclusive-or, is the machine's. -/
theorem toNat_crcShift (r : Half) : (crcShift r).toNat = Spec.crcShiftNat r.toNat := by
  simp only [crcShift, Spec.crcShiftNat, and_halfMask, BitVec.getLsbD]
  split
  · rw [BitVec.toNat_xor, BitVec.toNat_shiftLeft, Nat.xor_mod_two_pow]
    rfl
  · rw [BitVec.toNat_shiftLeft]

/-- The model's loop shifts first, `Nat.repeat` last: the iterations commute. -/
theorem crcShifts_succ (n : Nat) (r : Half) : crcShifts (n + 1) r = crcShift (crcShifts n r) := by
  induction n generalizing r with
  | zero => rfl
  | succ n ih => exact ih (crcShift r)

theorem toNat_crcShifts (n : Nat) (r : Half) :
    (crcShifts n r).toNat = Nat.repeat Spec.crcShiftNat n r.toNat := by
  induction n with
  | zero => rfl
  | succ n ih => rw [crcShifts_succ, toNat_crcShift, ih, Nat.repeat]

/-- The byte goes into the high half under the spec's first mask; then the loops agree. -/
theorem toNat_crcStep (c : Half) (b : Byte) : (crcStep c b).toNat = Spec.crcStepNat c.toNat b.toNat := by
  have hfold : (c ^^^ (zext16 b <<< 8)).toNat = (c.toNat ^^^ (b.toNat <<< 8)) &&& 0xFFFF := by
    rw [BitVec.toNat_xor, BitVec.toNat_shiftLeft, and_halfMask, Nat.xor_mod_two_pow, Nat.mod_eq_of_lt c.isLt,
      BitVec.toNat_setWidth_of_le (by decide)]
  rw [crcStep, toNat_crcShifts, hfold, Spec.crcStepNat]

/-! ### The byte 0, and a register that is 0 (R104) -/

@[simp] theorem crcStep_zero (c : Half) : crcStep c 0 = crcShifts 8 c := by
  simp [crcStep]

@[simp] theorem crcShifts_zero (n : Nat) : crcShifts n 0 = 0 := by
  induction n with
  | zero => rfl
  | succ n ih => exact ih

/-! ### A message followed by its own CRC (R100, R101; 20_memory.md R45) -/

/-- With bit 15 clear, an iteration is the shift alone. -/
theorem crcShift_of_lt {r : Half} (h : r.toNat < 2 ^ 15) : crcShift r = r <<< 1 :=
  if_neg (ne_true_of_eq_false (Nat.testBit_lt_two_pow h))

/-- Iterations that shift no set bit out of bit 15 never apply the polynomial. -/
theorem crcShifts_eq_shiftLeft (n : Nat) (r : Half) (h : r.toNat * 2 ^ n < 2 ^ 16) : crcShifts n r = r <<< n := by
  induction n with
  | zero => simp [crcShifts]
  | succ n ih =>
    have hroom : r.toNat * 2 ^ n < 2 ^ 15 := by
      rw [Nat.pow_succ] at h
      linarith
    have hshift : (r <<< n).toNat < 2 ^ 15 := by
      rw [BitVec.toNat_shiftLeft, Nat.shiftLeft_eq]
      exact (Nat.mod_le _ _).trans_lt hroom
    rw [crcShifts_succ, ih (by linarith), crcShift_of_lt hshift, BitVec.shiftLeft_add]

/-- The high byte of a register, fed to it, leaves the low byte as the high one: the exclusive-or clears the high half,
and eight iterations shift the low half up. -/
theorem crcStep_highByte (c : Half) : crcStep c (c.extractLsb' 8 8) = zext16 (c.extractLsb' 0 8) <<< 8 := by
  have hlow : c ^^^ (zext16 (c.extractLsb' 8 8) <<< 8) = zext16 (c.extractLsb' 0 8) := by
    apply BitVec.eq_of_getLsbD_eq
    intro i hi
    rw [BitVec.getLsbD_xor, getLsbD_zext8 _ _ hi]
    simp only [BitVec.getLsbD_setWidth, BitVec.getLsbD_extractLsb']
    by_cases h : i < 8
    · simp [h, hi, show ¬ 8 ≤ i by omega]
    · simp [h, show 8 ≤ i by omega, show i - 8 < 8 by omega]
  rw [crcStep, hlow]
  exact crcShifts_eq_shiftLeft 8 _ (by rw [BitVec.toNat_setWidth_of_le (by decide)]; omega)

/-- A byte fed to a register that holds it in its high half and nothing else clears the register. -/
theorem crcStep_same (b : Byte) : crcStep (zext16 b <<< 8) b = 0 := by
  rw [crcStep, BitVec.xor_self]
  exact crcShifts_zero 8

/-! ### The stream of commands (R70, R103) -/

/-- A CRC.BYTE per byte folds the bytes into CRC; CMDSTAT keeps the earlier command's opcode only when there is no
byte. -/
theorem issueAll_crcBytes (bs : List Byte) (op : Byte) (s : State) :
    Spec.issueAll (AsmStmt.words (.crcBytes bs)) (State.retire op .ok s)
      = .next (State.retire (if bs = [] then op else Opc.crcByte) .ok { s with crc := crc16 bs s.crc }) := by
  simp only [AsmStmt.words, AsmStmt.expand]
  induction bs generalizing op s with
  | nil => simp [Spec.issueAll]
  | cons b bs ih =>
    have hbyte : runWord (encode (.crcByte b)) (State.retire op .ok s)
        = .next (State.retire Opc.crcByte .ok { s with crc := crcStep s.crc b }) :=
      runWord_encode _ _
    rw [List.map_cons, List.map_cons, issueAll_cons _ hbyte, ih, ite_self, if_neg (List.cons_ne_nil b bs),
      crc16_cons]

end Sys2Proof.Machine

namespace Sys2Proof

open Sys2Proof.Machine

/-- Settles O31: CRC.INIT's equation, on the word of class imm16. -/
theorem crcInitLoadsCrc : Obligations.CrcInitLoadsCrc := by
  refine ⟨fun v => ?_, fun v s => exec_crcInit s v⟩
  exact (congrArg decode (opcode_or_imm16 Opc.crcInit v)).trans (decode_encode (.crcInit v))

/-- Settles O33: the spec's loop, iteration by iteration. -/
theorem crcStepIsTheSpecsLoop : Obligations.CrcStepIsTheSpecsLoop := toNat_crcStep

/-- Settles O32: CRC.BYTE's equation, its step taken on natural numbers. -/
theorem crcByteStepsCrc : Obligations.CrcByteStepsCrc := by
  refine ⟨fun b => ?_, fun b s => ?_⟩
  · exact (congrArg decode (opcode_or_operand Opc.crcByte b)).trans (decode_encode (.crcByte b))
  · rw [exec_crcByte, ← toNat_crcStep, BitVec.ofNat_toNat, BitVec.setWidth_eq]
    rfl

/-- Settles O34: a step with byte 0 is the eight iterations, each of them linear. -/
theorem crcStepIsLinear : Obligations.CrcStepIsLinear := by
  refine ⟨fun c d => ?_, ?_, fun c b => ?_⟩
  · rw [crcStep_zero, crcStep_zero, crcStep_zero, crcShifts_xor]
  · rw [crcStep_zero, crcShifts_zero]
  · rw [crcStep_zero, crcStep]

/-- Settles O35: the high byte moves the low one up, and the low byte then clears the register. -/
theorem crcOfMessageAndItsCrcIsZero : Obligations.CrcOfMessageAndItsCrcIsZero := by
  intro m init
  rw [crc16_append, crc16_cons, crc16_cons, crc16_nil, crcStep_highByte, crcStep_same]

/-- Settles O36: CRC.INIT with 0xFFFF, then the bytes folded into it. -/
theorem crcStreamComputesTheCrc : Obligations.CrcStreamComputesTheCrc := by
  intro s bs
  have hstart : runWord (encode (.crcInit 0xFFFF)) s = .next (State.retire Opc.crcInit .ok { s with crc := 0xFFFF }) :=
    runWord_encode _ s
  rw [show AsmStmt.words .crcStart = [encode (.crcInit 0xFFFF)] from rfl, List.singleton_append,
    issueAll_cons _ hstart, issueAll_crcBytes]
  split <;> rfl

end Sys2Proof
end

section
/-!
PROOFS. The frame validator (43_frame.md): the structural check against the spec's table (R111), the integrity fields at
the layout's offsets (R113), the whole effect of the four frame commands (R115-R119), and what a short sequence (R122)
and a frame built with its own integrity fields (R121) lead to.
-/
namespace Sys2Proof.Machine

/-! ### The structural check (R111) -/

/-- The first byte of a sequence, missing or not, against one byte. -/
theorem head?_ne_some_iff (b : List Byte) (c : Byte) : b.head? ≠ some c ↔ b.length = 0 ∨ byteAt b 0 ≠ c := by
  cases b <;> simp [byteAt]

/-- The last byte of a sequence, missing or not, against one byte. -/
theorem getLast?_ne_some_iff (b : List Byte) (c : Byte) :
    b.getLast? ≠ some c ↔ b.length = 0 ∨ byteAt b (b.length - 1) ≠ c := by
  rw [List.getLast?_eq_getElem?]
  cases b <;> simp [byteAt]

theorem mem_badStart_iff_head? (b : List Byte) : FaultCode.badStart ∈ structCheck b ↔ b.head? ≠ some 0x7E :=
  (mem_badStart b).trans (head?_ne_some_iff b delim).symm

theorem mem_badEnd_iff_getLast? (b : List Byte) : FaultCode.badEnd ∈ structCheck b ↔ b.getLast? ≠ some 0x7E :=
  (mem_badEnd b).trans (getLast?_ne_some_iff b delim).symm

theorem structCheck_sublist_structural (b : List Byte) :
    (structCheck b).Sublist [.tooShort, .badStart, .badEnd, .sizeMismatch] :=
  (((check_sublist _ _).append (check_sublist _ _)).append (check_sublist _ _)).append (check_sublist _ _)

/-- A bit set exactly when a condition holds, as the spec's tables write it. -/
theorem bitAt_decide (p : Prop) [Decidable p] (k : Nat) : bitAt (decide p) k = if p then bitAt true k else 0 := by
  by_cases h : p <;> simp [h, bitAt]

/-- RES_FAULTS of a byte sequence is the spec's word: one bit per condition of R111. -/
theorem faultBits_structCheck (b : List Byte) : faultBits (structCheck b) = Spec.structFaultWord b := by
  obtain ⟨hodd, hdigit⟩ := not_mem_hex b
  have hnone (k : Nat) : bitAt false k = 0#16 := by simp [bitAt]
  simp only [faultBits, faultBit, hodd, hdigit, decide_false, hnone, BitVec.zero_or, mem_tooShort,
    mem_badStart_iff_head?, mem_badEnd_iff_getLast?, mem_sizeMismatch, bitAt_decide]
  rfl

/-! ### What a frame command fails on (R114) -/

theorem frameLen_eq (b : List Byte) : frameLen b = (b.getD 3 0).toNat := rfl

theorem shortOrUndelimited_iff (b : List Byte) : Spec.shortOrUndelimited b ↔
    FaultCode.tooShort ∈ structCheck b ∨ FaultCode.badStart ∈ structCheck b ∨ FaultCode.badEnd ∈ structCheck b := by
  rw [mem_tooShort, mem_badStart_iff_head?, mem_badEnd_iff_getLast?, Spec.shortOrUndelimited]

/-- A sequence is too short or overruns exactly when it is too short or asks for more bytes than there are. -/
theorem short_or_overruns_iff (b : List Byte) :
    b.length < 8 ∨ overruns b = true ↔ b.length < 8 ∨ b.length < (b.getD 3 0).toNat + 8 := by
  rw [overruns_iff, frameLen_eq]
  omega

theorem header_fails_iff (b : List Byte) :
    FrameCmd.fails .header b (structCheck b) = true ↔ Spec.shortOrUndelimited b := by
  rw [shortOrUndelimited_iff, FrameCmd.fails, decide_eq_true_iff]

theorem payload_fails_iff (b : List Byte) : FrameCmd.fails .payload b (structCheck b) = true ↔
    Spec.shortOrUndelimited b ∨ b.length < (b.getD 3 0).toNat + 8 := by
  have h := short_or_overruns_iff b
  rw [shortOrUndelimited_iff, FrameCmd.fails, decide_eq_true_iff, mem_tooShort]
  tauto

theorem validate_fails_iff (b : List Byte) : FrameCmd.fails .validate b (structCheck b) = true ↔
    Spec.shortOrUndelimited b ∨ (b.getD 3 0).toNat + 8 ≠ b.length := by
  have hempty : b.length = 0 → b.length < 8 := by omega
  rw [FrameCmd.fails, decide_eq_true_iff, Ne, structCheck_eq_nil, frameLen_eq, Spec.shortOrUndelimited,
    head?_ne_some_iff, getLast?_ne_some_iff, ← Nat.not_lt]
  tauto

theorem full_fails_iff (b : List Byte) : FrameCmd.fails .full b (structCheck b) = true ↔
    b.length < 8 ∨ b.length < (b.getD 3 0).toNat + 8 := by
  rw [FrameCmd.fails, decide_eq_true_iff, mem_tooShort, short_or_overruns_iff]

/-- A structurally sound sequence fails no frame command. -/
theorem not_fails_of_structCheck_eq_nil (k : FrameCmd) {b : List Byte} (h : structCheck b = []) :
    k.fails b (structCheck b) = false :=
  Bool.eq_false_iff.mpr (fun hfails => structCheck_ne_nil_of_fails hfails h)

/-- A sequence of fewer than 8 bytes fails every frame command (R122). -/
theorem fails_of_length_lt (k : FrameCmd) {b : List Byte} (h : b.length < 8) : k.fails b (structCheck b) = true := by
  by_contra hok
  exact absurd (length_of_not_fails (Bool.eq_false_iff.mpr hok)) (Nat.not_le_of_lt h)

/-! ### The result of a frame command (R113, R115) -/

/-- RES_FLAGS from the two comparisons, as R115 writes it. -/
theorem flagsWord_eq (r : Integrity) : flagsWord r.crcValid r.csumValid
    = (if r.crcGiven = r.crcCalc then 2 else 0) ||| (if r.csumGiven = r.csumCalc then 1 else 0) := by
  simp only [flagsWord, Integrity.crcValid, Integrity.csumValid, bitAt_decide]
  rfl

/-- Without integrity fields, a populated result is the spec's header result. -/
theorem populate_eq_headerResult {k : FrameCmd} (hk : k.populatesIntegrity = false) (b : List Byte) (s : State) :
    State.populate k b s
      = Spec.headerResult (resStatusWord k.opcode false k.populatesPayload true .ok) b s := by
  simp only [State.populate, hk, faultBits_structCheck]
  rfl

/-- With integrity fields, a populated result is the spec's full result. -/
theorem populate_eq_fullResult {k : FrameCmd} (hk : k.populatesIntegrity = true) (b : List Byte) (s : State) :
    State.populate k b s
      = Spec.fullResult (resStatusWord k.opcode true k.populatesPayload true .ok) b s := by
  simp only [State.populate, hk, if_true, flagsWord_eq, faultBits_structCheck, integrity, append_eq_shift_or]
  rfl

/-! ### The four frame commands in one -/

/-- The command of the instruction set that a frame command is (30_encoding.md R62). -/
def FrameCmd.instr : FrameCmd → Instr
  | .header => .frmHeader
  | .payload => .frmPayload
  | .validate => .frmValidate
  | .full => .frmFull

theorem exec_frameInstr (k : FrameCmd) (s : State) :
    exec k.instr s = .next (State.retire k.opcode .ok (frameOp k s)) := by
  cases k <;> rfl

theorem exists_frameCmd_of_mem {i : Instr} (h : i ∈ [Instr.frmHeader, .frmPayload, .frmValidate, .frmFull]) :
    ∃ k : FrameCmd, i = k.instr := by
  simp only [List.mem_cons, List.not_mem_nil, or_false] at h
  obtain rfl | rfl | rfl | rfl := h
  exacts [⟨.header, rfl⟩, ⟨.payload, rfl⟩, ⟨.validate, rfl⟩, ⟨.full, rfl⟩]

/-- FRM.VALIDATE and FRM.FULL populate the integrity fields (R114). -/
theorem exists_frameCmd_populatesIntegrity {i : Instr} (h : i = .frmValidate ∨ i = .frmFull) :
    ∃ k : FrameCmd, i = k.instr ∧ k.populatesIntegrity = true := by
  obtain rfl | rfl := h
  exacts [⟨.validate, rfl, rfl⟩, ⟨.full, rfl, rfl⟩]

theorem frameOp_of_fails {k : FrameCmd} {s : State} {b : List Byte} (hdec : hexDecode (State.text s) = .ok b)
    (h : k.fails b (structCheck b) = true) : frameOp k s
      = State.raiseInvalidFrame k.opcode (structCheck b) (State.putBytes b (State.clearResults k.opcode s)) := by
  rw [frameOp, hdec]
  exact if_pos h

theorem frameOp_of_not_fails {k : FrameCmd} {s : State} {b : List Byte} (hdec : hexDecode (State.text s) = .ok b)
    (h : k.fails b (structCheck b) = false) :
    frameOp k s = State.populate k b (State.putBytes b (State.clearResults k.opcode s)) := by
  rw [frameOp, hdec]
  exact if_neg (Bool.eq_false_iff.mp h)

/-- InvalidFrame leaves the bytes and a bare result with their structural faults (60_exceptions.md R144). -/
theorem raiseInvalidFrame_eq_bareResult (op : Byte) (b : List Byte) (s : State) :
    State.raiseInvalidFrame op (structCheck b) (State.putBytes b (State.clearResults op s))
      = { Spec.bareResult (resStatusWord op false false false .invalidFrame) (Spec.structFaultWord b) s with
          bbuf := Memory.writeSeq s.bbuf 0 b, bcount := BitVec.ofNat 16 b.length } := by
  rw [← faultBits_structCheck]
  rfl

/-- A populated result holds nothing of the results before it. -/
theorem populate_putBytes (k : FrameCmd) (b : List Byte) (s : State) :
    State.populate k b (State.putBytes b (State.clearResults k.opcode s))
      = { State.populate k b s with bbuf := Memory.writeSeq s.bbuf 0 b, bcount := BitVec.ofNat 16 b.length } := rfl

/-- The common procedure in the spec's form (R115), for a frame command that fails on `fails` and otherwise leaves
`result`. -/
theorem frameCommand_of {k : FrameCmd} {fails : List Byte → Prop} {result : List Byte → State → State}
    (hfails : ∀ b, k.fails b (structCheck b) = true ↔ fails b)
    (hresult : ∀ b s, State.populate k b s = result b s) :
    Spec.frameCommand k.instr k.opcode fails result := by
  intro s
  refine ⟨_, exec_frameInstr k s, ?_⟩
  obtain ⟨f, hdec, hop⟩ | ⟨b, hdec, hf, hop⟩ | ⟨b, hdec, hf, hop⟩ := frameOp_cases k s <;> rw [hdec, hop]
  · rw [raiseMalformedHex_eq_bareResult _ hdec, resStatusWord_bare]
    rfl
  · rw [raiseInvalidFrame_eq_bareResult, resStatusWord_bare]
    exact ⟨holdsFromZero_writeSeq _ b, bytes_putBytes s b (decoded_length_lt hdec), fun _ => rfl,
      absurd ((hfails b).mp hf)⟩
  · rw [populate_putBytes, hresult]
    refine ⟨holdsFromZero_writeSeq _ b, bytes_putBytes s b (decoded_length_lt hdec), fun h => ?_, fun _ => rfl⟩
    exact absurd ((hfails b).mpr h) (Bool.eq_false_iff.mp hf)

/-! ### The layout (R110, R113) -/

/-- The bytes after the payload stand at offset 4 + L. -/
theorem byteAt_afterPayload (start dev cmd len : Byte) (p tail : List Byte) (j : Nat) :
    byteAt (start :: dev :: cmd :: len :: (p ++ tail)) (4 + p.length + j) = tail.getD j 0 := by
  rw [show 4 + p.length + j = p.length + j + 1 + 1 + 1 + 1 by omega, byteAt]
  simp only [List.getD_cons_succ]
  rw [List.getD_append_right _ _ _ _ (Nat.le_add_right _ _), Nat.add_sub_cancel_left]

/-- The region runs from deviceId to the end of the payload. -/
theorem region_layout (start dev cmd len : Byte) (p tail : List Byte) (hlen : p.length = len.toNat) :
    region (start :: dev :: cmd :: len :: (p ++ tail)) = dev :: cmd :: len :: p := by
  have hL : frameLen (start :: dev :: cmd :: len :: (p ++ tail)) = p.length := hlen.symm
  rw [region, hL, Nat.add_comm]
  simp

theorem locatable_layout (start dev cmd len : Byte) (p tail : List Byte) (hlen : p.length = len.toNat)
    (htail : 4 ≤ tail.length) : locatable (start :: dev :: cmd :: len :: (p ++ tail)) = true := by
  have hL : frameLen (start :: dev :: cmd :: len :: (p ++ tail)) = p.length := hlen.symm
  rw [locatable_iff, hL]
  simp only [List.length_cons, List.length_append]
  omega

theorem integrity_layout (start dev cmd len cs hi lo : Byte) (p rest : List Byte) (hlen : p.length = len.toNat) :
    integrity (start :: dev :: cmd :: len :: (p ++ cs :: hi :: lo :: rest))
      = { csumGiven := cs
          csumCalc := checksum (dev :: cmd :: len :: p)
          crcGiven := hi ++ lo
          crcCalc := crc16 (dev :: cmd :: len :: p) crcInitial } := by
  have hL : frameLen (start :: dev :: cmd :: len :: (p ++ cs :: hi :: lo :: rest)) = p.length := hlen.symm
  have hfield := byteAt_afterPayload start dev cmd len p (cs :: hi :: lo :: rest)
  rw [integrity, region_layout _ _ _ _ _ _ hlen, hL]
  congr 1
  · exact hfield 0
  · rw [show 5 + p.length = 4 + p.length + 1 by omega, show 6 + p.length = 4 + p.length + 2 by omega, hfield, hfield]
    rfl

/-! ### A frame with its own integrity fields (R121) -/

/-- The bytes a frame's integrity fields are computed over: header and payload. -/
def frameRegion (dev cmd : Byte) (p : List Byte) : List Byte := dev :: cmd :: BitVec.ofNat 8 p.length :: p

/-- A built frame, field by field. -/
theorem buildFrame_eq_layout (dev cmd : Byte) (p : List Byte) :
    buildFrame dev cmd p = delim :: dev :: cmd :: BitVec.ofNat 8 p.length :: (p ++ checksum (frameRegion dev cmd p)
      :: (crc16 (frameRegion dev cmd p) crcInitial).extractLsb' 8 8
      :: (crc16 (frameRegion dev cmd p) crcInitial).extractLsb' 0 8 :: [delim]) := rfl

/-- A register is its high byte beside its low byte. -/
theorem highByte_append_lowByte (c : Half) : c.extractLsb' 8 8 ++ c.extractLsb' 0 8 = c :=
  (BitVec.extractLsb'_append_extractLsb'_eq_extractLsb' rfl).trans BitVec.extractLsb'_eq_self

theorem toNat_ofNat_length {p : List Byte} (h : p.length ≤ 255) : (BitVec.ofNat 8 p.length).toNat = p.length := by
  rw [BitVec.toNat_ofNat]
  omega

theorem structCheck_buildFrame (dev cmd : Byte) {p : List Byte} (h : p.length ≤ 255) :
    structCheck (buildFrame dev cmd p) = [] := by
  have hlen : (buildFrame dev cmd p).length = p.length + 8 := by simp [buildFrame]
  have hL : frameLen (buildFrame dev cmd p) = p.length := toNat_ofNat_length h
  rw [structCheck_eq_nil, hlen, hL]
  refine ⟨by omega, rfl, ?_, rfl⟩
  rw [show p.length + 8 - 1 = 4 + p.length + 3 by omega, buildFrame_eq_layout, byteAt_afterPayload]
  rfl

theorem integrity_buildFrame (dev cmd : Byte) {p : List Byte} (h : p.length ≤ 255) :
    integrity (buildFrame dev cmd p)
      = { csumGiven := checksum (frameRegion dev cmd p)
          csumCalc := checksum (frameRegion dev cmd p)
          crcGiven := crc16 (frameRegion dev cmd p) crcInitial
          crcCalc := crc16 (frameRegion dev cmd p) crcInitial } := by
  rw [buildFrame_eq_layout, integrity_layout _ _ _ _ _ _ _ _ _ (toNat_ofNat_length h).symm, highByte_append_lowByte]
  rfl

theorem payload_buildFrame (dev cmd : Byte) {p : List Byte} (h : p.length ≤ 255) :
    ((buildFrame dev cmd p).drop 4).take (frameLen (buildFrame dev cmd p)) = p := by
  have hL : frameLen (buildFrame dev cmd p) = p.length := toNat_ofNat_length h
  rw [hL, buildFrame_eq_layout]
  exact List.take_left

/-- The entity of a built frame holds the values it was built from, with no error. -/
theorem validatedEntity_buildFrame (dev cmd : Byte) {p : List Byte} (h : p.length ≤ 255) :
    validatedEntity (buildFrame dev cmd p) =
      { deviceId := some dev, command := some cmd, length := some (BitVec.ofNat 8 p.length), payload := p
        checksumGiven := some (checksum (frameRegion dev cmd p))
        checksumCalc := some (checksum (frameRegion dev cmd p))
        crcGiven := some (crc16 (frameRegion dev cmd p) crcInitial)
        crcCalc := some (crc16 (frameRegion dev cmd p) crcInitial)
        checksumValid := some true, crcValid := some true, errors := [] } := by
  rw [validatedEntity, integrity_buildFrame dev cmd h, structCheck_buildFrame dev cmd h, payload_buildFrame dev cmd h]
  simp only [Integrity.csumValid, Integrity.crcValid, decide_true]
  rfl

end Sys2Proof.Machine

namespace Sys2Proof

open Sys2Proof.Machine

/-- Settles O38: each code is recorded by one check alone, and the checks stand in the fixed order. -/
theorem structCheckRecordsEveryFault : Obligations.StructCheckRecordsEveryFault :=
  fun b => ⟨mem_tooShort b, mem_badStart_iff_head? b, mem_badEnd_iff_getLast? b, mem_sizeMismatch b,
    structCheck_sublist_structural b⟩

/-- Settles O40: the region and each field are read off the layout. -/
theorem integrityReadsTheLayoutOffsets : Obligations.IntegrityReadsTheLayoutOffsets := by
  intro start dev cmd len cs hi lo p rest hlen hrest
  have htail : 4 ≤ (cs :: hi :: lo :: rest).length := by
    have := List.length_pos_iff.mpr hrest
    simp only [List.length_cons]
    omega
  rw [integrity_layout _ _ _ _ _ _ _ _ _ hlen, append_eq_shift_or]
  exact ⟨locatable_layout _ _ _ _ _ _ hlen htail, rfl, decide_eq_true_iff, decide_eq_true_iff⟩

/-- Settles O41: FRM.HEADER fails on TOO_SHORT, BAD_START and BAD_END, and populates the header alone. -/
theorem frmHeaderReportsTheHeader : Obligations.FrmHeaderReportsTheHeader :=
  ⟨decode_encode .frmHeader, frameCommand_of (k := .header) header_fails_iff (populate_eq_headerResult rfl)⟩

/-- Settles O42: FRM.PAYLOAD fails on an overrun too, and populates header and payload. -/
theorem frmPayloadReportsThePayload : Obligations.FrmPayloadReportsThePayload :=
  ⟨decode_encode .frmPayload, frameCommand_of (k := .payload) payload_fails_iff (populate_eq_headerResult rfl)⟩

/-- Settles O43: FRM.VALIDATE fails on any structural fault, and populates every field. -/
theorem frmValidateChecksIntegrity : Obligations.FrmValidateChecksIntegrity :=
  ⟨decode_encode .frmValidate, frameCommand_of (k := .validate) validate_fails_iff (populate_eq_fullResult rfl)⟩

/-- Settles O44: FRM.FULL fails only when the fields cannot be located, and populates every field. -/
theorem frmFullPopulatesWhatIsLocatable : Obligations.FrmFullPopulatesWhatIsLocatable :=
  ⟨decode_encode .frmFull, frameCommand_of (k := .full) full_fails_iff (populate_eq_fullResult rfl)⟩

/-- Settles O46: every frame command fails, and InvalidFrame leaves the integrity registers cleared. -/
theorem shortSequenceNeverReachesIntegrity : Obligations.ShortSequenceNeverReachesIntegrity := by
  intro i s b hi hdec hshort
  obtain ⟨k, rfl⟩ := exists_frameCmd_of_mem hi
  refine ⟨_, exec_frameInstr k s, ?_⟩
  rw [frameOp_of_fails hdec (fails_of_length_lt k hshort)]
  have hbit : (faultBits (structCheck b)).getLsbD FaultCode.tooShort.bit = true := by
    rw [getLsbD_faultBits, decide_eq_true_iff, mem_tooShort]
    exact hshort
  exact ⟨resOutcomeField_word _ _ _ _ _, hbit, intVField_word _ _ _ _ _, rfl, rfl⟩

/-- Settles O48: the spelled bytes are the built frame, which is structurally sound, so that the command populates the
frame's own fields. -/
theorem builtFrameRoundTrips : Obligations.BuiltFrameRoundTrips := by
  intro dev cmd p i s hp hi htext
  obtain ⟨k, rfl, hk⟩ := exists_frameCmd_populatesIntegrity hi
  have hdec : hexDecode (State.text s) = .ok (buildFrame dev cmd p) := hexSpellingDecodesToItsBytes _ _ htext
  have hsound := structCheck_buildFrame dev cmd hp
  have hop := frameOp_of_not_fails hdec (not_fails_of_structCheck_eq_nil k hsound)
  have hint : intVField (frameOp k s).resStatus = true := by
    rw [hop, populate_resStatus, intVField_word, hk]
  have hentity : State.frameEntity (frameOp k s) = some (validatedEntity (buildFrame dev cmd p)) := by
    rw [frameEntity_eq_validated (resultOk_frameOp k s) hint, bytes_frameOp, decodedBytes_ok hdec]
  refine ⟨_, exec_frameInstr k s, ?_, ?_, ?_⟩
  · rw [retire_resFlags, hop, populate_resFlags, if_pos hk, integrity_buildFrame dev cmd hp]
    simp only [Integrity.csumValid, Integrity.crcValid, decide_true]
    rfl
  · rw [retire_resFaults, hop, populate_resFaults, hsound, faultBits_nil]
  · exact hentity.trans (congrArg some (validatedEntity_buildFrame dev cmd hp))

end Sys2Proof
end

section
/-!
PROOFS. The control commands (44_control.md R130, R131): the words that decode to them, and their whole effect.
-/
namespace Sys2Proof

/-- With NOP's opcode byte and any other bit set, an operand field is not zero (30_encoding.md R63). -/
theorem decode_nopOpcode_ne_zero {w : Word} (hopc : Word.opc w = Opc.nop) (hne : w ≠ 0) :
    decode w = .illegal Opc.nop := by
  have hfields : ¬ (Word.b8 w = 0 ∧ Word.imm16 w = 0) := fun ⟨hb, hv⟩ => hne (word_ext hopc hb hv)
  rw [decode, if_pos hopc, decodeNone, if_neg hfields, hopc]

end Sys2Proof

namespace Sys2Proof.Machine

/-- No element is inside a window of valid length 0 (20_memory.md R42). -/
@[simp] theorem windowRead_zero (m : Memory) (i : Nat) : windowRead m 0 i = 0 :=
  if_neg (Nat.not_lt_zero i)

/-- With an empty text and an empty byte sequence both windows read 0 throughout. -/
theorem readPort_emptyWindows {s : State} (htlen : s.tlen = 0) (hbcount : s.bcount = 0) {a : Half}
    (ha : 0x4000 ≤ a.toNat) : readPort s a = 0 := by
  rw [readPort, if_neg (Nat.not_lt.mpr ha), htlen, hbcount, windowRead_zero, windowRead_zero, ite_self]

end Sys2Proof.Machine

namespace Sys2Proof

open Sys2Proof.Machine

/-- Settles O12: a word with opcode 0x00 passes the check of class none only when it is 0. -/
theorem nopChangesOnlyCmdstat : Obligations.NopChangesOnlyCmdstat :=
  ⟨decode_encode .nop, fun _ => decode_nopOpcode_ne_zero, exec_nop⟩

/-- Settles O13: SRST and the reset input share the reset, which leaves both lengths 0. -/
theorem srstAppliesTheResetValues : Obligations.SrstAppliesTheResetValues := by
  refine ⟨decode_encode .srst, fun s => ⟨_, exec_srst s, rfl, fun _ => rfl, fun a ha => ?_⟩⟩
  exact readPort_emptyWindows rfl rfl ha

end Sys2Proof
end

section
/-!
PROOFS. The exceptions (60_exceptions.md): IllegalCommand (R141) and TextFull (R142) with what CMDSTAT records of every
word (R140), MalformedHex and InvalidFrame (R143, R144), integrity mismatches, which are no exception (R145), that no
step stops (R148, R149), and blocks side by side (R153).
-/
namespace Sys2Proof

theorem encode_injective : Function.Injective encode := by
  intro i j h
  have hdec := congrArg decode h
  rw [decode_encode, decode_encode] at hdec
  exact Decoded.legal.inj hdec

theorem legalByClass_encode (i : Instr) : Spec.legalByClass (encode i) :=
  (legal_iff_legalByClass _).mp (legal_encode i)

/-- A word that is not legal decodes to its opcode byte alone (30_encoding.md R64, R67). -/
theorem decode_of_not_legalByClass {w : Word} (h : ¬ Spec.legalByClass w) : decode w = .illegal (Word.opc w) := by
  cases hd : decode w with
  | legal i => exact absurd (eq_encode_of_decode hd ▸ legalByClass_encode i) h
  | illegal op => rw [decode_illegal hd]

end Sys2Proof

namespace Sys2Proof.Machine

/-! ### A command word: legal or not (R141) -/

theorem raiseIllegal_eq (op : Byte) (s : State) :
    State.raiseIllegal op s = { s with cmdstat := Spec.opWord op 1 } := rfl

theorem runWord_of_not_legalByClass {w : Word} (h : ¬ Spec.legalByClass w) (s : State) :
    runWord w s = .next (State.raiseIllegal (Word.opc w) s) :=
  runWord_illegal (decode_of_not_legalByClass h) s

/-- Everything one command word can do: raise IllegalCommand, or execute the command whose word it is. -/
theorem runWord_cases {w : Word} {s t : State} (h : runWord w s = .next t) :
    (¬ Spec.legalByClass w ∧ t = State.raiseIllegal (Word.opc w) s)
      ∨ ∃ i, w = encode i ∧ exec i s = .next t := by
  by_cases hw : Spec.legalByClass w
  · obtain ⟨i, hi⟩ := exists_decode_of_legal ((legal_iff_legalByClass w).mpr hw)
    exact .inr ⟨i, eq_encode_of_decode hi, (runWord_legal hi s).symm.trans h⟩
  · rw [runWord_of_not_legalByClass hw] at h
    exact .inl ⟨hw, (Host.Outcome.next.inj h).symm⟩

/-- Every event of the host completes: a word, legal or not, and the reset input. -/
theorem runEvent_completes (e : HostEvent) (s : State) : ∃ t, runEvent e s = .next t := by
  cases e with
  | command w => exact runWord_completes w s
  | reset x => exact ⟨_, rfl⟩

end Sys2Proof.Machine

namespace Sys2Proof

open Sys2Proof.Machine

/-- Settles O4: the word decodes to its opcode byte, and IllegalCommand writes CMDSTAT alone. -/
theorem illegalWordChangesOnlyCmdstat : Obligations.IllegalWordChangesOnlyCmdstat :=
  fun _ s hw => (runWord_of_not_legalByClass hw s).trans (congrArg Host.Outcome.next (raiseIllegal_eq _ s))

/-- Settles O6: the step is the oldest event's effect, which for the reset input does not depend on the word issued
meanwhile. -/
theorem stepTakesTheOldestEvent : Obligations.StepTakesTheOldestEvent := by
  intro s rest
  refine ⟨fun w hp hw => ?_, fun x y hp => ?_, step_idle⟩
  · exact (step_command hp).trans (illegalWordChangesOnlyCmdstat w _ hw)
  · rw [step_event hp]
    rfl

/-- Settles O8: with nothing waiting the step answers the same state, and every event completes. -/
theorem noStepStops : Obligations.NoStepStops := by
  intro s
  cases hp : s.pending with
  | nil => exact ⟨s, step_idle hp⟩
  | cons e rest =>
    rw [step_event hp]
    exact runEvent_completes e _

end Sys2Proof

namespace Sys2Proof.Machine

/-! ### What CMDSTAT records (R140) -/

/-- A command ends with its own opcode in CMDSTAT, and in OK unless it is a TXT.PUSH that found the buffer full. -/
theorem exec_cmdstat {i : Instr} {s t : State} (h : exec i s = .next t) :
    ∃ o : CmdOutcome, t.cmdstat = cmdstatWord (Word.opc (encode i)) o ∧ o ≠ .illegal
      ∧ (o = .textFull ↔ (∃ c, i = .txtPush c) ∧ s.tlen.toNat = s.cfg.textMax) := by
  cases i with
  | txtPush c =>
    obtain ⟨hfull, rfl⟩ | ⟨hroom, rfl⟩ := exec_txtPush_cases h <;> rw [encode, opc_ofFields]
    · exact ⟨.textFull, rfl, nofun, by simp [hfull]⟩
    · exact ⟨.ok, rfl, nofun, by simp [hroom]⟩
  | _ =>
    cases h
    rw [encode, opc_ofFields]
    exact ⟨.ok, rfl, nofun, by simp⟩

/-- A decode or frame command counts as executed, whatever its result. -/
theorem exec_decode_cmdstat {i : Instr} {s t : State} (hi : Spec.isDecode i = true) (h : exec i s = .next t) :
    t.cmdstat = cmdstatWord (Word.opc (encode i)) .ok := by
  obtain ⟨o, hcmd, hillegal, hfull⟩ := exec_cmdstat h
  cases o with
  | ok => exact hcmd
  | illegal => exact absurd rfl hillegal
  | textFull =>
    obtain ⟨⟨c, rfl⟩, -⟩ := hfull.mp rfl
    exact nomatch hi

/-- Every word ends with its opcode byte in CMDSTAT, and with the one outcome its legality and the buffer decide. -/
theorem runWord_cmdstat {w : Word} {s t : State} (h : runWord w s = .next t) :
    ∃ o : CmdOutcome, t.cmdstat = cmdstatWord (Word.opc w) o ∧ (o = .illegal ↔ ¬ Spec.legalByClass w)
      ∧ (o = .textFull ↔ (∃ c, w = encode (.txtPush c)) ∧ s.tlen.toNat = s.cfg.textMax) := by
  obtain ⟨hw, rfl⟩ | ⟨i, rfl, hexec⟩ := runWord_cases h
  · have hpush : ¬ ∃ c, w = encode (.txtPush c) := fun ⟨c, hc⟩ => hw (hc ▸ legalByClass_encode _)
    exact ⟨.illegal, rfl, by simp [hw], by simp [hpush]⟩
  · obtain ⟨o, hcmd, hillegal, hfull⟩ := exec_cmdstat hexec
    refine ⟨o, hcmd, by simp [hillegal, legalByClass_encode], ?_⟩
    simpa only [encode_injective.eq_iff] using hfull

/-- The outcome codes of CMDSTAT as the spec numbers them (10_state.md R25). -/
theorem outcomeCode_iff (o : CmdOutcome) :
    ((o.code.setWidth 16 : Half) = 1 ↔ o = .illegal) ∧ ((o.code.setWidth 16 : Half) = 2 ↔ o = .textFull)
      ∧ ((o.code.setWidth 16 : Half) = 0 ∨ (o.code.setWidth 16 : Half) = 1 ∨ (o.code.setWidth 16 : Half) = 2) := by
  cases o <;> decide

end Sys2Proof.Machine

namespace Sys2Proof

open Sys2Proof.Machine

/-- Settles O9: the number in CMDSTAT is the code of the word's outcome. -/
theorem cmdstatRecordsEveryWord : Obligations.CmdstatRecordsEveryWord := by
  intro w s t h
  obtain ⟨o, hcmd, hillegal, hfull⟩ := runWord_cmdstat h
  obtain ⟨hone, htwo, hrange⟩ := outcomeCode_iff o
  exact ⟨o.code.setWidth 16, hcmd, hone.trans hillegal, htwo.trans hfull, hrange⟩

end Sys2Proof

namespace Sys2Proof.Machine

/-! ### The full text buffer (R142) -/

/-- Once TextFull was raised, every further push raises it again and changes nothing. -/
theorem issueAll_txtPush_full (cs : List Byte) {s : State} (h : s.tlen.toNat = s.cfg.textMax) :
    Spec.issueAll (cs.map (fun d => encode (.txtPush d))) (State.raiseTextFull Opc.txtPush s)
      = .next (State.raiseTextFull Opc.txtPush s) := by
  induction cs with
  | nil => rfl
  | cons c cs ih =>
    have hpush : runWord (encode (.txtPush c)) (State.raiseTextFull Opc.txtPush s)
        = .next (State.raiseTextFull Opc.txtPush s) :=
      (runWord_encode _ _).trans (exec_txtPush_full _ c h)
    rw [List.map_cons, issueAll_cons _ hpush, ih]

/-- TXT.CLEAR, both resets and a TXT.SANITIZE that shortens the text make room and keep the parameter. -/
theorem tlen_lt_of_makesRoom {s t : State} (hfull : s.tlen.toNat = s.cfg.textMax) (hcfg : s.cfg.legal)
    (h : exec .txtClear s = .next t ∨ exec .srst s = .next t ∨ runEvent (.reset none) s = .next t
      ∨ (exec .txtSanitize s = .next t ∧ (sanitize (State.text s)).length < s.tlen.toNat)) :
    t.cfg = s.cfg ∧ t.tlen.toNat < s.cfg.textMax := by
  have hpos : 0 < s.cfg.textMax := by omega
  obtain h | h | h | ⟨h, hshort⟩ := h <;> cases h
  · exact ⟨rfl, hpos⟩
  · exact ⟨rfl, hpos⟩
  · exact ⟨rfl, hpos⟩
  · exact ⟨rfl, (toNat_ofNat16_le _).trans_lt (hfull ▸ hshort)⟩

end Sys2Proof.Machine

namespace Sys2Proof

open Sys2Proof.Machine

/-- Settles O17: TextFull changes CMDSTAT alone, by induction on the pushes, and with room a push appends. -/
theorem fullBufferDropsEveryPush : Obligations.FullBufferDropsEveryPush := by
  intro c cs s hfull
  constructor
  · have hpush : runWord (encode (.txtPush c)) s = .next (State.raiseTextFull Opc.txtPush s) :=
      (runWord_encode _ _).trans (exec_txtPush_full s c hfull)
    rw [List.map_cons, issueAll_cons _ hpush, issueAll_txtPush_full cs hfull]
    rfl
  · intro t hlegal hroom
    obtain ⟨hcfg, htlen⟩ := tlen_lt_of_makesRoom hfull hlegal hroom
    rw [← hcfg] at hlegal htlen
    refine ⟨_, exec_txtPush_room t c htlen.ne, rfl, ?_⟩
    rw [text_retire, text_appendChar t c (by omega)]

end Sys2Proof

namespace Sys2Proof.Machine

/-! ### A decode that fails (R143, R144) -/

/-- From `s`, state `t` holds a failed result: MALFORMED_HEX or INVALID_FRAME, at least one fault, no validity bit and
no populated field; nothing else than BBUF, BCOUNT and CMDSTAT changed. -/
def failedResult (s t : State) : Prop :=
  ∃ (op : Byte) (o : ResOutcome) (f : List FaultCode), (o = .malformedHex ∨ o = .invalidFrame) ∧ f ≠ []
    ∧ t = { Spec.bareResult (resStatusWord op false false false o) (faultBits f) s with
            bbuf := t.bbuf, bcount := t.bcount, cmdstat := t.cmdstat }

theorem failedResult_raiseMalformedHex (op : Byte) {f : List FaultCode} (s : State) (hf : f ≠ []) :
    failedResult s (State.raiseMalformedHex op f (State.clearResults op s)) :=
  ⟨op, .malformedHex, f, .inl rfl, hf, rfl⟩

theorem failedResult_raiseInvalidFrame (op : Byte) {f : List FaultCode} (b : List Byte) (s : State) (hf : f ≠ []) :
    failedResult s (State.raiseInvalidFrame op f (State.putBytes b (State.clearResults op s))) :=
  ⟨op, .invalidFrame, f, .inr rfl, hf, rfl⟩

theorem failedResult_retire (op : Byte) (o : CmdOutcome) {s t : State} (h : failedResult s t) :
    failedResult s (State.retire op o t) := by
  obtain ⟨rop, ro, f, hro, hf, ht⟩ := h
  refine ⟨rop, ro, f, hro, hf, ?_⟩
  rw [ht]
  rfl

theorem hexDecodeOp_ok_or_failed (s : State) :
    resOutcomeField (hexDecodeOp s).resStatus = 1 ∨ failedResult s (hexDecodeOp s) := by
  obtain ⟨f, hdec, h⟩ | ⟨b, -, h⟩ := hexDecodeOp_cases s <;> rw [h]
  · exact .inr (failedResult_raiseMalformedHex _ s (hexDecode_malformed hdec).2)
  · exact .inl (resOutcomeField_word _ _ _ _ _)

theorem frameOp_ok_or_failed (k : FrameCmd) (s : State) :
    resOutcomeField (frameOp k s).resStatus = 1 ∨ failedResult s (frameOp k s) := by
  obtain ⟨f, hdec, h⟩ | ⟨b, -, hfails, h⟩ | ⟨b, -, -, h⟩ := frameOp_cases k s <;> rw [h]
  · exact .inr (failedResult_raiseMalformedHex _ s (hexDecode_malformed hdec).2)
  · exact .inr (failedResult_raiseInvalidFrame _ b s (structCheck_ne_nil_of_fails hfails))
  · exact .inl (resOutcomeField_word _ _ _ _ _)

/-- A decode or frame command ends in OK or leaves a failed result. -/
theorem exec_decode_ok_or_failed {i : Instr} {s t : State} (hi : Spec.isDecode i = true) (h : exec i s = .next t) :
    resOutcomeField t.resStatus = 1 ∨ failedResult s t := by
  obtain hx | ⟨k, hx⟩ := exec_decode hi <;> cases (hx s).symm.trans h
  · exact (hexDecodeOp_ok_or_failed s).imp id (failedResult_retire _ _)
  · exact (frameOp_ok_or_failed k s).imp id (failedResult_retire _ _)

/-- A failed result, register by register. -/
theorem failedResult_registers {s t : State} (h : failedResult s t) :
    t.resFaults ≠ 0 ∧ (resOutcomeField t.resStatus = 2 ∨ resOutcomeField t.resStatus = 3)
      ∧ t = { Spec.bareResult t.resStatus t.resFaults s with
              bbuf := t.bbuf, bcount := t.bcount, cmdstat := t.cmdstat }
      ∧ hdrVField t.resStatus = false ∧ payVField t.resStatus = false ∧ intVField t.resStatus = false := by
  obtain ⟨op, o, f, ho, hf, ht⟩ := h
  have hstatus : t.resStatus = resStatusWord op false false false o := by rw [ht]; rfl
  have hfaults : t.resFaults = faultBits f := by rw [ht]; rfl
  rw [hstatus, hfaults, resOutcomeField_word]
  refine ⟨(faultBits_eq_zero f).not.mpr hf, ?_, ht, hdrVField_word _ _ _ _ _, payVField_word _ _ _ _ _,
    intVField_word _ _ _ _ _⟩
  obtain rfl | rfl := ho
  · exact .inl rfl
  · exact .inr rfl

/-- The Frame entity exists exactly when the outcome is OK (10_state.md R37). -/
theorem frameEntity_eq_none {t : State} (h : resOutcomeField t.resStatus ≠ 1) : State.frameEntity t = none :=
  if_neg h

theorem payload_eq_nil {t : State} (h : payVField t.resStatus = false) : State.payload t = [] :=
  if_neg (Bool.eq_false_iff.mp h)

end Sys2Proof.Machine

namespace Sys2Proof

open Sys2Proof.Machine

/-- Settles O47: not ending in OK, the command leaves a failed result, and CMDSTAT records it as executed. -/
theorem failedDecodeReturnsNoEntity : Obligations.FailedDecodeReturnsNoEntity := by
  intro i s t hi h hne
  have hfailed : failedResult s t := (exec_decode_ok_or_failed hi h).resolve_left hne
  obtain ⟨hfaults, houtcome, ht, hhdr, hpay, hint⟩ := failedResult_registers hfailed
  have hcmd : t.cmdstat = Spec.opWord (Word.opc (encode i)) 0 := exec_decode_cmdstat hi h
  rw [hcmd] at ht
  exact ⟨frameEntity_eq_none hne, hfaults, payload_eq_nil hpay, houtcome, ht, hhdr, hpay, hint⟩

end Sys2Proof

namespace Sys2Proof.Machine

/-! ### An integrity mismatch (R145) -/

theorem structCheck_eq_nil_of_structFaultWord {b : List Byte} (h : Spec.structFaultWord b = 0) : structCheck b = [] :=
  (faultBits_eq_zero _).mp ((faultBits_structCheck b).trans h)

theorem csumValid_iff (r : Integrity) : r.csumValid = true ↔ r.csumGiven = r.csumCalc := decide_eq_true_iff

theorem crcValid_iff (r : Integrity) : r.crcValid = true ↔ r.crcGiven = r.crcCalc := decide_eq_true_iff

/-- Populated integrity fields: each flag compares the two values beside it. -/
theorem populate_flags_iff {k : FrameCmd} (hk : k.populatesIntegrity = true) (b : List Byte) (s : State) :
    (csumValidField (State.populate k b s).resFlags = true
        ↔ (State.populate k b s).resCsumGiven = (State.populate k b s).resCsumCalc)
      ∧ (crcValidField (State.populate k b s).resFlags = true
        ↔ (State.populate k b s).resCrcGiven = (State.populate k b s).resCrcCalc) := by
  simp [hk, csumValid_iff, crcValid_iff]

end Sys2Proof.Machine

namespace Sys2Proof

open Sys2Proof.Machine

/-- Settles O45: a structurally sound sequence fails no frame command, so the command populates its result. -/
theorem integrityMismatchIsNoFailure : Obligations.IntegrityMismatchIsNoFailure := by
  intro i s b hi hdec hsound
  obtain ⟨k, rfl, hk⟩ := exists_frameCmd_populatesIntegrity hi
  have hcheck := structCheck_eq_nil_of_structFaultWord hsound
  have hop := frameOp_of_not_fails hdec (not_fails_of_structCheck_eq_nil k hcheck)
  refine ⟨_, exec_frameInstr k s, ?_, cmdOutcomeField_word _ _, ?_, ?_⟩
  · rw [retire_resStatus, hop, populate_resStatus, resOutcomeField_word]
    rfl
  · rw [retire_resFaults, hop, populate_resFaults, hcheck, faultBits_nil]
  · rw [hop]
    exact populate_flags_iff hk b (State.putBytes b (State.clearResults k.opcode s))

end Sys2Proof

namespace Sys2Proof.Machine

/-! ### Blocks side by side (R153) -/

/-- Everything a step of block `k` can do: nothing where there is no block, and otherwise that block's own step. -/
theorem stepBlock_cases {p q : Platform} {k : Nat} (h : p.stepBlock k = .next q) :
    (p.blocks[k]? = none ∧ q = p)
      ∨ ∃ s t, p.blocks[k]? = some s ∧ step s = .next t ∧ q = { blocks := p.blocks.set k t } := by
  unfold Platform.stepBlock at h
  cases hk : p.blocks[k]? with
  | none =>
    rw [hk] at h
    exact .inl ⟨rfl, (Host.Outcome.next.inj h).symm⟩
  | some s =>
    obtain ⟨t, ht⟩ := noStepStops s
    simp only [hk, ht] at h
    exact .inr ⟨s, t, rfl, ht, (Host.Outcome.next.inj h).symm⟩

end Sys2Proof.Machine

namespace Sys2Proof

open Sys2Proof.Machine

/-- Settles O60: the list of states changes at the position of the block that steps, and there to its own step's
state. -/
theorem instancesShareNothing : Obligations.InstancesShareNothing := by
  intro p q k h
  obtain ⟨hnone, rfl⟩ | ⟨s, t, hs, ht, rfl⟩ := stepBlock_cases h
  · exact ⟨rfl, fun _ _ => rfl, fun s hs => absurd (hnone.symm.trans hs) nofun⟩
  · refine ⟨List.length_set, fun j hj => List.getElem?_set_ne hj.symm, fun s' hs' => ⟨t, ?_, ?_⟩⟩
    · rwa [Option.some.inj (hs'.symm.trans hs)]
    · obtain ⟨hlt, -⟩ := List.getElem?_eq_some_iff.mp hs
      exact List.getElem?_set_self hlt

end Sys2Proof
end

section
/-!
PROOFS. Reset and hazards (70_reset_and_hazards.md): what the host reads after the reset input (R160), the state after
reset against the invariant, and a saved CRC stream (R165).
-/
namespace Sys2Proof.Machine

@[simp] theorem readPort_crc (s : State) : readPort s 0x0001 = s.crc := rfl

/-! ### What reset leaves to read (R160) -/

/-- After the reset input every named register reads 0 but CRC and PARAM_TEXT_MAX, as the reserved addresses do. -/
theorem registerRead_applyReset (s : State) (a : Nat) : registerRead (State.applyReset s) a
    = if a = 0x0001 then 0xFFFF else if a = 0x0005 then BitVec.ofNat 16 s.cfg.textMax else 0 := by
  unfold registerRead
  split
  case h_17 => rw [if_neg ‹a = 0x0001 → False›, if_neg ‹a = 0x0005 → False›]
  all_goals rfl

/-- After the reset input both windows are empty, so the registers alone decide what is read. -/
theorem readPort_applyReset (s : State) (a : Half) : readPort (State.applyReset s) a
    = if a = 0x0001 then 0xFFFF else if a = 0x0005 then BitVec.ofNat 16 s.cfg.textMax else 0 := by
  by_cases ha : a.toNat < 0x4000
  · rw [readPort_register _ ha, registerRead_applyReset]
    have hcrc : a.toNat = 0x0001 ↔ a = 0x0001 := BitVec.toNat_inj (y := 0x0001#16)
    have hparam : a.toNat = 0x0005 ↔ a = 0x0005 := BitVec.toNat_inj (y := 0x0005#16)
    simp only [hcrc, hparam]
  · have hcrc : a ≠ 0x0001 := fun h => ha (by simp [h])
    have hparam : a ≠ 0x0005 := fun h => ha (by simp [h])
    rw [readPort_emptyWindows rfl rfl (Nat.not_lt.mp ha), if_neg hcrc, if_neg hparam]

/-- The state after reset is one that the reset input leaves as it is. -/
theorem applyReset_resetWith (cfg : Config) : State.applyReset (State.resetWith cfg) = State.resetWith cfg := rfl

/-! ### The state after reset and the invariant -/

/-- A buffer with nothing listed and no valid element is in bounds at any capacity. -/
theorem bufferOk_nil (cap : Nat) : bufferOk cap [] 0 := ⟨rfl, rfl, Nat.zero_le cap⟩

theorem inv_resetWith {cfg : Config} (hlegal : cfg.legal) : State.Inv (State.resetWith cfg) := by
  have hbuffers := (buffersOk_iff (State.resetWith cfg)).mpr ⟨bufferOk_nil cfg.textMax, bufferOk_nil cfg.byteMax⟩
  have hcmdstat := cmdstatOk_applyReset (State.resetWith cfg)
  have hresult := resultOk_applyReset (State.resetWith cfg)
  rw [applyReset_resetWith] at hcmdstat hresult
  exact ⟨hlegal, hbuffers, hcmdstat, hresult⟩

end Sys2Proof.Machine

namespace Sys2Proof

open Sys2Proof.Machine

/-- Settles O10: the reset input and SRST write the same reset values, and SRST then its CMDSTAT. -/
theorem resetSetsEveryRegister : Obligations.ResetSetsEveryRegister :=
  fun s _ => ⟨State.applyReset s, rfl, rfl, readPort_applyReset s, _, exec_srst s, rfl⟩

/-- Settles O37: CRC.INIT puts back the value read, and the bytes fold into it as they would have without the
interruption (42_crc.md R104). -/
theorem savedCrcStreamResumesExactly : Obligations.SavedCrcStreamResumesExactly := by
  intro as bs init s u hsaved
  have hinit : runWord (encode (.crcInit (crc16 as init))) u
      = .next (State.retire Opc.crcInit .ok { u with crc := crc16 as init }) :=
    runWord_encode _ u
  have hrun := (issueAll_cons (AsmStmt.words (.crcBytes bs)) hinit).trans (issueAll_crcBytes bs _ _)
  rw [readPort_crc, hsaved]
  exact ⟨_, hrun, (readPort_crc _).trans (crc16_append as bs init).symm⟩

/-- Settles O11: the state after reset is the reset input's own. -/
theorem resetStateReadsAsSpecified : Obligations.ResetStateReadsAsSpecified :=
  fun cfg => readPort_applyReset (State.resetWith cfg)

/-- Settles O54: empty buffers, an empty result, and a default parameter that is legal (00_scope.md R6). -/
theorem resetMeetsTheInvariant : Obligations.ResetMeetsTheInvariant :=
  ⟨fun _ => inv_resetWith, inv_resetWith (by decide)⟩

end Sys2Proof
end
